-- ==== Sys2Proof/Word.lean ====
section
/-! DEFINITION. The three widths the block moves (spec 20_memory.md R55, 00_scope.md R6): bytes, character codes, groups. -/

namespace Sys2Proof

/-- A data byte, `BYTEW` = 8 bits (R6). -/
abbrev Byte := BitVec 8

/-- A character code, `CHARW` = 8 bits (R6, R75). -/
abbrev Code := BitVec 8

/-- A symbol value, `GROUPW` = 5 bits (R6). -/
abbrev Group := BitVec 5

end Sys2Proof
end

