-- ==== Sys2Proof/Syntax.lean ====
section
/-! DEFINITION. Tokens: the words on the input ports, the instructions they stand for, the output tokens, the host's actions. -/

namespace Sys2Proof

/-- The three input ports (R70). -/
inductive Port where
  | encIn
  | decIn
  | umxIn
  deriving DecidableEq, Repr

/-- The width of a port's token in bits (R70, R84). -/
def Port.width : Port → Nat
  | .encIn => 10
  | .decIn => 9
  | .umxIn => 128

/-- One token as bits on its port (R71, R72, R73). -/
inductive PortWord where
  | encIn (w : BitVec 10)
  | decIn (w : BitVec 9)
  | umxIn (w : BitVec 128)
  deriving DecidableEq, Repr

/-- The port a word stands on. -/
def PortWord.port : PortWord → Port
  | .encIn _ => .encIn
  | .decIn _ => .decIn
  | .umxIn _ => .umxIn

/-- The bits of a word as a number, bit 0 the least significant (R10). -/
def PortWord.value : PortWord → Nat
  | .encIn w => w.toNat
  | .decIn w => w.toNat
  | .umxIn w => w.toNat

/-- The 16 bytes of an identifier, `id[0]` first (R54, R73). -/
abbrev Ident := Vector Byte 16

/-- One constructor per row of spec/opcode_table.json.
The end tokens and the reserved encoding keep their payload, though no step reads it (R81, R82). -/
inductive Instr where
  /-- ENC.BYTE `b` (R102). -/
  | encByte (b : Byte)
  /-- ENC.END (R104). -/
  | encEnd (payload : Byte)
  /-- ENC.ENDP (R106). -/
  | encEndp (payload : Byte)
  /-- `ENC_IN` with kind 3: not an instruction (R82). -/
  | encReserved (payload : Byte)
  /-- DEC.CHAR `c` (R123). -/
  | decChar (c : Code)
  /-- DEC.END (R130). -/
  | decEnd (payload : Byte)
  /-- UMX.ID `id` (R143). -/
  | umxId (id : Ident)
  deriving DecidableEq, Repr

/-- The port an instruction's token stands on. -/
def Instr.port : Instr → Port
  | .encByte _ => .encIn
  | .encEnd _ => .encIn
  | .encEndp _ => .encIn
  | .encReserved _ => .encIn
  | .decChar _ => .decIn
  | .decEnd _ => .decIn
  | .umxId _ => .umxIn

/-- `ENC_OUT` tokens (R74). -/
inductive EncOut where
  | char (c : Code)
  | eom
  deriving DecidableEq, Repr

/-- `DEC_OUT` tokens (R74); `pos` is the position field's value. -/
inductive DecOut where
  | byte (b : Byte)
  | err (c : Code) (pos : Nat)
  | eom (err : Bool)
  deriving DecidableEq, Repr

/-- What the host does at the block's inputs (R70, R85, R190, R205). -/
inductive HostAction where
  /-- A token is presented on its port. -/
  | token (w : PortWord)
  /-- The reset event; `coincident` are the tokens presented in the same instant, at most one a port (R177, R190). -/
  | reset (coincident : List PortWord)
  /-- The strap `HOST_LE` is set for the actions that follow (R29, R85). -/
  | strap (hostLe : Bool)
  deriving DecidableEq, Repr

end Sys2Proof
end

