-- ==== Sys2Proof/WellFormed.lean ====
section
/-! DEFINITION. Which terms of `Instr` are instructions: every one but the reserved encoding. -/

namespace Sys2Proof

/-- The one check: `ENC_IN` kind 3 is no instruction and must never be presented (R82, R197).
Every other operand value is legal (R72, R73, R81, R109). -/
def Instr.wellFormed : Instr → Bool
  | .encByte _ => true
  | .encEnd _ => true
  | .encEndp _ => true
  | .encReserved _ => false
  | .decChar _ => true
  | .decEnd _ => true
  | .umxId _ => true

end Sys2Proof
end

