-- ==== Sys2Proof/Decode.lean ====
section
/-! DEFINITION. Decoding of input tokens (30_encoding.md R71 to R73, R79 to R84), the encoder, the opcode table, and the bits of output tokens (R74, R83). -/

namespace Sys2Proof

/-- Byte `i` of the identifier on the 128-bit bus: bits `[127-8i : 120-8i]` (R54, R73). -/
def identByte (w : BitVec 128) (i : Nat) : Byte := w.extractLsb' (120 - 8 * i) 8

/-- The sixteen operands of UMX.ID (R73, R80). -/
def identOfWord (w : BitVec 128) : Ident := Vector.ofFn fun i : Fin 16 => identByte w i.val

/-- An identifier packed on the bus, `id[0]` most significant (R54). -/
def wordOfIdent (id : Ident) : BitVec 128 :=
  BitVec.ofNat 128 (id.toList.foldl (fun acc b => acc * 256 + b.toNat) 0)

/-- `ENC_IN`: kind in bits 9 to 8, payload in bits 7 to 0 (R71, R79). -/
def decodeEncIn (w : BitVec 10) : Instr :=
  match (w.extractLsb' 8 2).toNat with
  | 0 => .encByte (w.extractLsb' 0 8)
  | 1 => .encEnd (w.extractLsb' 0 8)
  | 2 => .encEndp (w.extractLsb' 0 8)
  | _ => .encReserved (w.extractLsb' 0 8)

/-- `DEC_IN`: kind in bit 8, payload in bits 7 to 0 (R72, R79). -/
def decodeDecIn (w : BitVec 9) : Instr :=
  match (w.extractLsb' 8 1).toNat with
  | 0 => .decChar (w.extractLsb' 0 8)
  | _ => .decEnd (w.extractLsb' 0 8)

/-- Decoding is total and needs only the port and the kind (R79). -/
def decode : PortWord → Instr
  | .encIn w => decodeEncIn w
  | .decIn w => decodeDecIn w
  | .umxIn w => .umxId (identOfWord w)

/-- The word of an instruction, from the same formats (R71 to R73). -/
def encode : Instr → PortWord
  | .encByte b => .encIn (0#2 ++ b)
  | .encEnd p => .encIn (1#2 ++ p)
  | .encEndp p => .encIn (2#2 ++ p)
  | .encReserved p => .encIn (3#2 ++ p)
  | .decChar c => .decIn (0#1 ++ c)
  | .decEnd p => .decIn (1#1 ++ p)
  | .umxId id => .umxIn (wordOfIdent id)

/-- Why a number of bits and a value are no token of any port. -/
inductive DecodeReject where
  /-- No port has tokens of that many bits (R70, R84). -/
  | noSuchWidth
  /-- The value has a bit set above the port's width (R84). -/
  | bitsAboveWidth
  deriving DecidableEq, Repr

/-- A number as a word of a port, if it fits (R84). -/
def wordOnPort (p : Port) (w : Nat) : Except DecodeReject PortWord :=
  if w < 2 ^ p.width then
    match p with
    | .encIn => .ok (.encIn (BitVec.ofNat 10 w))
    | .decIn => .ok (.decIn (BitVec.ofNat 9 w))
    | .umxIn => .ok (.umxIn (BitVec.ofNat 128 w))
  else .error .bitsAboveWidth

/-- The port a token of `nbits` bits stands on.
DESIGN CHOICE (log 10): the table's numbering names no port; 16, the whole-byte size of both the 10-bit and the
9-bit tokens, is read as `ENC_IN`. -/
def portOfBits (nbits : Nat) : Except DecodeReject Port :=
  if nbits = 10 ∨ nbits = 16 then .ok .encIn
  else if nbits = 9 then .ok .decIn
  else if nbits = 128 then .ok .umxIn
  else .error .noSuchWidth

/-- The word the opcode table's numbering means by `nbits` bits of value `w`, or why there is none. -/
def wordOfTable (nbits w : Nat) : Except DecodeReject PortWord :=
  match portOfBits nbits with
  | .ok p => wordOnPort p w
  | .error e => .error e

/-- The instruction the decoder reads from an instruction whose bits are `w`, numbered as spec/opcode_table.json numbers them. -/
def decodeTableWord (nbits w : Nat) : Option Instr :=
  match wordOfTable nbits w with
  | .ok pw => some (decode pw)
  | .error _ => none

/-- One row of the opcode map (R79). -/
structure OpcodeRow where
  mnemonic : String
  port : Port
  matchBits : Nat
  mask : Nat
  deriving DecidableEq, Repr

/-- The opcode map of R79, in its order. -/
def opcodeTable : List OpcodeRow :=
  [ ⟨"ENC.BYTE", .encIn, 0x000, 0x300⟩,
    ⟨"ENC.END", .encIn, 0x100, 0x300⟩,
    ⟨"ENC.ENDP", .encIn, 0x200, 0x300⟩,
    ⟨"ENC.RESERVED", .encIn, 0x300, 0x300⟩,
    ⟨"DEC.CHAR", .decIn, 0x000, 0x100⟩,
    ⟨"DEC.END", .decIn, 0x100, 0x100⟩,
    ⟨"UMX.ID", .umxIn, 0, 0⟩ ]

/-- Whether a word is of a row: on its port, and equal to `match` under `mask`. -/
def OpcodeRow.covers (r : OpcodeRow) (w : PortWord) : Bool :=
  r.port == w.port && (w.value &&& r.mask) == r.matchBits

/-- An instruction's mnemonic in spec/opcode_table.json. -/
def Instr.mnemonic : Instr → String
  | .encByte _ => "ENC.BYTE"
  | .encEnd _ => "ENC.END"
  | .encEndp _ => "ENC.ENDP"
  | .encReserved _ => "ENC.RESERVED"
  | .decChar _ => "DEC.CHAR"
  | .decEnd _ => "DEC.END"
  | .umxId _ => "UMX.ID"

/-- The 9 bits of an `ENC_OUT` token: kind in bit 8, payload below, 0 for EOM (R74, R83). -/
def EncOut.word : EncOut → BitVec 9
  | .char c => 0#1 ++ c
  | .eom => 1#1 ++ 0#8

/-- The `POSW` + 10 bits of a `DEC_OUT` token: kind, data, pos from the top; unused fields are 0 (R74, R83). -/
def DecOut.word (posw : Nat) : DecOut → BitVec (2 + 8 + posw)
  | .byte b => 0#2 ++ b ++ 0#posw
  | .err c pos => 1#2 ++ c ++ BitVec.ofNat posw pos
  | .eom e => 2#2 ++ (if e then 1#8 else 0#8) ++ 0#posw

end Sys2Proof
end

