-- ==== Sys2Proof/Config.lean ====
section
/-! DEFINITION. The block's parameters (00_scope.md R6). The open ones, `POSW` and `HOST_LE`, are fields of State, so that every statement holds for each of their values; here stand the values State.reset gives them. -/

namespace Sys2Proof

/-- `POSW`, the width of the position counter: 32 is the spec's default (R6, D9). -/
def Config.poswDefault : Nat := 32

/-- DESIGN CHOICE, unsafe (log 1): the level of the strap `HOST_LE` in `State.reset`.
The spec gives none, as the block does not store it (R29, R34). -/
def Config.hostLeAtReset : Bool := false

end Sys2Proof
end

