-- ==== Sys2Proof/Machine/State.lean ====
section
/-! DEFINITION. The state of the block (10_state.md): the registers of ENC and DEC, the parameters `HOST_LE` and `POSW`, the host's pending actions and the two output streams; and how a step can stop. -/

namespace Sys2Proof.Machine

/-- The registers of the encoder unit (R21). `eN` is a number below 5, as R22 asks (log 17). -/
structure EncRegs where
  /-- `e_acc`, 4 bits: the residue, right-aligned. -/
  eAcc : BitVec 4
  /-- `e_n`: how many residue bits are held. -/
  eN : Fin 5
  /-- `e_sym8`: symbols emitted in this message, modulo 8. -/
  eSym8 : Fin 8
  deriving DecidableEq, Repr

/-- The registers of the decoder unit (R24). The two positions are numbers below `2^POSW` (log 2). -/
structure DecRegs where
  /-- `d_acc`, 7 bits: the residue, right-aligned. -/
  dAcc : BitVec 7
  /-- `d_n`: how many residue bits are held. -/
  dN : Fin 8
  /-- `d_pos`: index, modulo `2^POSW`, of the next character of the message. -/
  dPos : Nat
  /-- `d_pad`: a pad run is open. -/
  dPad : Bool
  /-- `d_padpos`: what `d_pos` was at the first `'='` of the open pad run. -/
  dPadpos : Nat
  /-- `d_err`: InvalidSymbol has been raised in this message. -/
  dErr : Bool
  deriving DecidableEq, Repr

/-- The whole block at token level. -/
structure State where
  /-- ENC's registers (R21). -/
  enc : EncRegs
  /-- DEC's registers (R24). -/
  dec : DecRegs
  /-- The strap `HOST_LE`: true is 1, a little-endian host (R29). -/
  hostLe : Bool
  /-- The parameter `POSW`, which nothing changes (R6, R33). -/
  posw : Nat
  /-- The host's actions not yet taken, the next one first (R33, R85, R190). -/
  input : List HostAction
  /-- What `ENC_OUT` has delivered, oldest first (R33, R61). -/
  encOut : List EncOut
  /-- What `DEC_OUT` has delivered, oldest first (R33, R61). -/
  decOut : List DecOut
  deriving DecidableEq, Repr

/-- The block has no machine fault: its one exception, InvalidSymbol, is an output token and a flag, and the machine goes on
(R170, R178). Nobody raises a `Fault`; that there is none is safe, as every stop is a `Refusal` (log 15). -/
inductive Fault where
  deriving DecidableEq, Repr

/-- Why a step has no meaning. -/
inductive Refusal where
  /-- An instruction without a meaning yet: raised by no arm of `exec` now. Safe. -/
  | notModelled (mnemonic : String)
  /-- `ENC_IN` kind 3: raised by the meaning of ENC.RESERVED, as R82 demands. Safe (log 8). -/
  | reservedToken
  /-- ENC's residue has a bit at or above `e_n`: raised by ENC.BYTE, ENC.END, ENC.ENDP and UMX.ID in such a state,
  which no run reaches and for which the spec gives no behaviour (R22, U6). Safe (log 6). -/
  | illegalEncRegisters
  /-- DEC's residue has a bit at or above `d_n`, or a position does not fit `POSW` bits: raised by DEC.CHAR and DEC.END in
  such a state, which no run reaches and for which the spec gives no behaviour (R25, U6). Safe (log 6). -/
  | illegalDecRegisters
  deriving DecidableEq, Repr

/-- ENC's registers after reset (R34). -/
def EncRegs.reset : EncRegs := { eAcc := 0, eN := 0, eSym8 := 0 }

/-- DEC's registers after reset (R34). -/
def DecRegs.reset : DecRegs :=
  { dAcc := 0, dN := 0, dPos := 0, dPad := false, dPadpos := 0, dErr := false }

/-- The block right after its first reset (R34, R192): registers zero, nothing presented, nothing delivered (log 20).
The strap's level is the model's choice (log 1), `POSW` the spec's default (R6). -/
def State.reset : State :=
  { enc := EncRegs.reset
    dec := DecRegs.reset
    hostLe := Config.hostLeAtReset
    posw := Config.poswDefault
    input := []
    encOut := []
    decOut := [] }

end Sys2Proof.Machine
end

