-- ==== Sys2Proof/Machine/Operands.lean ====
section
/-! DEFINITION. The operand forms: the tables ALPHA and REV (R75 to R78), the residue windows of the two units (R102, R104, R124), the pad count (R106), the identifier's lanes (R140, R142). -/

namespace Sys2Proof.Machine

/-- The code of `'='` (R75). UNVERIFIED with every code of R75: the spec itself supplies US-ASCII from outside its source (log 11). -/
def padCode : Code := 0x3D#8

/-- The alphabet table `ALPHA` as arithmetic on codes (R76). -/
def alpha (v : Group) : Code :=
  if v.toNat ≤ 25 then 0x41#8 + v.setWidth 8 else 0x18#8 + v.setWidth 8

/-- Case normalisation, on decode only (R77). -/
def caseNorm (c : Code) : Code :=
  if 0x61 ≤ c.toNat ∧ c.toNat ≤ 0x7A then c - 0x20#8 else c

/-- The classes of the reverse table (R78). -/
inductive CharClass where
  | sym (v : Group)
  | pad
  | inv
  deriving DecidableEq, Repr

/-- The reverse table `REV`, through the normalised code (R78). -/
def rev (c : Code) : CharClass :=
  let u := (caseNorm c).toNat
  if 0x41 ≤ u ∧ u ≤ 0x5A then .sym (BitVec.ofNat 5 (u - 0x41))
  else if 0x32 ≤ u ∧ u ≤ 0x37 then .sym (BitVec.ofNat 5 (u - 0x32 + 26))
  else if caseNorm c = padCode then .pad
  else .inv

/-- The low `r` bits of a window, at width `n` (R10, R102, R124). -/
def lowBits (n : Nat) {m : Nat} (w : BitVec m) (r : Nat) : BitVec n := BitVec.ofNat n (w.toNat % 2 ^ r)

/-- ENC's window: the residue with the byte appended (`w` of R102). -/
def EncRegs.window (r : EncRegs) (b : Byte) : BitVec 12 := r.eAcc ++ b

/-- The groups one byte completes, oldest first (R102). -/
def EncRegs.byteGroups (r : EncRegs) (b : Byte) : List Group :=
  let t := r.eN.val + 8
  let w := r.window b
  if t ≥ 10 then [w.extractLsb' (t - 5) 5, w.extractLsb' (t - 10) 5] else [w.extractLsb' (t - 5) 5]

/-- ENC's registers after one byte (R102). -/
def EncRegs.afterByte (r : EncRegs) (b : Byte) : EncRegs :=
  if h : r.eN.val + 8 ≥ 10 then
    { eAcc := lowBits 4 (r.window b) (r.eN.val - 2)
      eN := ⟨r.eN.val - 2, by omega⟩
      eSym8 := r.eSym8 + 2 }
  else
    { eAcc := lowBits 4 (r.window b) (r.eN.val + 3)
      eN := ⟨r.eN.val + 3, by omega⟩
      eSym8 := r.eSym8 + 1 }

/-- The residue left-aligned in a group and zero-filled on the right, if there is one (R104). -/
def EncRegs.flushGroups (r : EncRegs) : List Group :=
  if r.eN.val > 0 then [r.eAcc.setWidth 5 <<< (5 - r.eN.val)] else []

/-- `P`, the pad characters that fill the block of a message whose symbols count `s` modulo 8 (R106, R107). -/
def padCount (s : Fin 8) : Nat := (8 - s.val) % 8

/-- Characters as `ENC_OUT` tokens. -/
def charsOf (gs : List Group) : List EncOut := gs.map fun g => EncOut.char (alpha g)

/-- DEC's window: the residue with the symbol value appended (`w` of R124). -/
def DecRegs.window (r : DecRegs) (v : Group) : BitVec 12 := r.dAcc ++ v

/-- The byte one symbol completes, if any (R124). -/
def DecRegs.symBytes (r : DecRegs) (v : Group) : List DecOut :=
  let t := r.dN.val + 5
  if t ≥ 8 then [DecOut.byte ((r.window v).extractLsb' (t - 8) 8)] else []

/-- `r` of R124: the residue bits held after one symbol. -/
def DecRegs.nAfterSym (r : DecRegs) : Fin 8 :=
  if h : r.dN.val + 5 ≥ 8 then ⟨r.dN.val - 3, by omega⟩ else ⟨r.dN.val + 5, by omega⟩

/-- `d_pos + 1` modulo `2^POSW` (R124, R126, R200). -/
def nextPos (posw pos : Nat) : Nat := (pos + 1) % 2 ^ posw

/-- DEC's registers after one symbol in mode NORMAL (R124). -/
def DecRegs.afterSym (posw : Nat) (r : DecRegs) (v : Group) : DecRegs :=
  { r with
    dAcc := lowBits 7 (r.window v) r.nAfterSym.val
    dN := r.nAfterSym
    dPos := nextPos posw r.dPos }

/-- `Reorder(id, le)`, the multiplexer (R140). -/
def reorder (id : Ident) (le : Bool) : Ident :=
  if le then
    #v[id[3], id[2], id[1], id[0], id[5], id[4], id[7], id[6],
       id[8], id[9], id[10], id[11], id[12], id[13], id[14], id[15]]
  else id

/-- The lane permutation `pi` (R142). -/
def lanePerm : Vector (Fin 16) 16 := #v[3, 2, 1, 0, 5, 4, 7, 6, 8, 9, 10, 11, 12, 13, 14, 15]

end Sys2Proof.Machine
end

