-- ==== Sys2Proof/Machine/Flags.lean ====
section
/-! DEFINITION. The two flags `d_err` and `d_pad` (R28), the decoder's mode they name (R26), and which register values the spec gives behaviour for (R22, R25, U6). -/

namespace Sys2Proof.Machine

/-- The decoder's modes (R26). -/
inductive DecMode where
  | normal
  | padRun
  | error
  deriving DecidableEq, Repr

/-- The mode is a reading of (`d_err`, `d_pad`) (R26). -/
def DecRegs.mode (r : DecRegs) : DecMode :=
  if r.dErr then .error else if r.dPad then .padRun else .normal

/-- `d_err <- 1`, the register effect of a raise (R172). -/
def DecRegs.setErr (r : DecRegs) : DecRegs := { r with dErr := true }

/-- The registers after an `'='` in mode NORMAL or PADRUN (R126): the first one of a run is remembered. -/
def DecRegs.afterPad (posw : Nat) (r : DecRegs) : DecRegs :=
  { r with
    dPad := true
    dPadpos := if r.dPad then r.dPadpos else r.dPos
    dPos := nextPos posw r.dPos }

/-- ENC's residue fits its count: outside, the spec gives no behaviour (R22, U6; log 6). -/
def EncRegs.legal (r : EncRegs) : Bool := decide (r.eAcc.toNat < 2 ^ r.eN.val)

/-- DEC's residue fits its count and the positions fit `POSW` bits (R24, R25, U6; log 6).
The other relations U6 names are not demanded: rules give the effect there (R23, R125, R200; log 7). -/
def DecRegs.legal (posw : Nat) (r : DecRegs) : Bool :=
  decide (r.dAcc.toNat < 2 ^ r.dN.val) && decide (r.dPos < 2 ^ posw) && decide (r.dPadpos < 2 ^ posw)

end Sys2Proof.Machine
end

