-- ==== Sys2Proof/Machine/Ops.lean ====
section
/-! DEFINITION. The named operations over State: emitting, writing a unit's registers, raising InvalidSymbol and leaving mode ERROR, the host's actions, and the guard on register values. -/

namespace Sys2Proof.Machine

/-- Append to `ENC_OUT` in the order given (R12, R61). -/
def State.emitEnc (ts : List EncOut) (s : State) : State := { s with encOut := s.encOut ++ ts }

/-- Append to `DEC_OUT` in the order given (R12, R61). -/
def State.emitDec (ts : List DecOut) (s : State) : State := { s with decOut := s.decOut ++ ts }

/-- Write ENC's registers. -/
def State.setEnc (r : EncRegs) (s : State) : State := { s with enc := r }

/-- Write DEC's registers. -/
def State.setDec (r : DecRegs) (s : State) : State := { s with dec := r }

/-- `raise InvalidSymbol(c, p)`: the report and the sticky flag, and nothing else (R12, R172, R178). -/
def State.raiseInvalidSymbol (c : Code) (p : Nat) (s : State) : State :=
  (s.setDec s.dec.setErr).emitDec [.err c p]

/-- How mode ERROR is left by a token: DEC.END reports `d_err` and restores the reset state (R130, R179). -/
def State.closeDec (s : State) : State :=
  (s.emitDec [.eom s.dec.dErr]).setDec DecRegs.reset

/-- ENC's close: the last output of the message and the reset state (R35, R104, R106). -/
def State.closeEnc (ts : List EncOut) (s : State) : State :=
  (s.emitEnc (ts ++ [.eom])).setEnc EncRegs.reset

/-- An ENC step, refused on register values the spec gives no behaviour for (R22, U6). -/
def State.onEnc (s : State) (f : State → State) : Host.Outcome State Fault Refusal :=
  if s.enc.legal then .next (f s) else .refused .illegalEncRegisters

/-- A DEC step, refused on register values the spec gives no behaviour for (R25, U6). -/
def State.onDec (s : State) (f : State → State) : Host.Outcome State Fault Refusal :=
  if s.dec.legal s.posw then .next (f s) else .refused .illegalDecRegisters

/-- The reset event: every register to its reset value, no output, the strap untouched (R190). -/
def State.takeReset (s : State) : State := (s.setEnc EncRegs.reset).setDec DecRegs.reset

/-- The strap at a new level (R29, R198). -/
def State.setStrap (b : Bool) (s : State) : State := { s with hostLe := b }

/-- The host's next action is taken off the input. -/
def State.dropAction (s : State) : State := { s with input := s.input.tail }

/-- The host presents an action before all others. -/
def State.present (a : HostAction) (s : State) : State := { s with input := a :: s.input }

/-- With nothing to process a unit holds its state (R185; log 4). -/
def State.idle (s : State) : State := s

end Sys2Proof.Machine
end

