-- ==== Sys2Proof/Machine/Dec.lean ====
section
/-! DEFINITION. The meanings of the decoder family: DEC.CHAR with its six arms, DEC.END (41_decoder.md). -/

namespace Sys2Proof.Machine

/-- A symbol in mode NORMAL (R124). -/
def State.decSymbol (v : Group) (s : State) : State :=
  (s.setDec (s.dec.afterSym s.posw v)).emitDec (s.dec.symBytes v)

/-- An `'='` in mode NORMAL or PADRUN (R126). -/
def State.decPad (s : State) : State := s.setDec (s.dec.afterPad s.posw)

/-- The step DEC.CHAR `c`: one of six arms, by the mode and the class of `c` (R123). -/
def State.decChar (c : Code) (s : State) : State :=
  match s.dec.mode, rev c with
  | .error, _ => s
  | .normal, .sym v => s.decSymbol v
  | .normal, .pad => s.decPad
  | .normal, .inv => s.raiseInvalidSymbol c s.dec.dPos
  | .padRun, .pad => s.decPad
  | .padRun, .sym _ => s.raiseInvalidSymbol padCode s.dec.dPadpos
  | .padRun, .inv => s.raiseInvalidSymbol padCode s.dec.dPadpos

/-- DEC.CHAR (R123 to R129). -/
def execDecChar (c : Code) (s : State) : Host.Outcome State Fault Refusal :=
  s.onDec (State.decChar c)

/-- DEC.END; the payload is ignored (R81, R130). -/
def execDecEnd (_payload : Byte) (s : State) : Host.Outcome State Fault Refusal :=
  s.onDec State.closeDec

end Sys2Proof.Machine
end

