-- ==== Sys2Proof/Machine/Enc.lean ====
section
/-! DEFINITION. The meanings of the encoder family: ENC.BYTE, ENC.END, ENC.ENDP and the reserved `ENC_IN` kind (40_encoder.md). -/

namespace Sys2Proof.Machine

/-- The step ENC.BYTE `b` (R102). -/
def State.encByte (b : Byte) (s : State) : State :=
  (s.setEnc (s.enc.afterByte b)).emitEnc (charsOf (s.enc.byteGroups b))

/-- The step ENC.END (R104). -/
def State.encEnd (s : State) : State := s.closeEnc (charsOf s.enc.flushGroups)

/-- The pad characters ENC.ENDP emits: they fill the block after the flushed symbol is counted (R106, R107). -/
def EncRegs.padding (r : EncRegs) : List EncOut :=
  List.replicate (padCount (if r.eN.val > 0 then r.eSym8 + 1 else r.eSym8)) (.char padCode)

/-- The step ENC.ENDP (R106). -/
def State.encEndp (s : State) : State := s.closeEnc (charsOf s.enc.flushGroups ++ s.enc.padding)

/-- ENC.BYTE (R102). -/
def execEncByte (b : Byte) (s : State) : Host.Outcome State Fault Refusal :=
  s.onEnc (State.encByte b)

/-- ENC.END; the payload is ignored (R81, R104). -/
def execEncEnd (_payload : Byte) (s : State) : Host.Outcome State Fault Refusal :=
  s.onEnc State.encEnd

/-- ENC.ENDP; the payload is ignored (R81, R106). -/
def execEncEndp (_payload : Byte) (s : State) : Host.Outcome State Fault Refusal :=
  s.onEnc State.encEndp

/-- `ENC_IN` kind 3 has no meaning and is refused, whatever its payload (R82). -/
def execEncReserved (_payload : Byte) (_s : State) : Host.Outcome State Fault Refusal :=
  .refused .reservedToken

end Sys2Proof.Machine
end

