-- ==== Sys2Proof/Machine/Umx.lean ====
section
/-! DEFINITION. The meaning of UMX.ID: reorder one identifier and hand it to the encoder (42_uuid_mux.md). -/

namespace Sys2Proof.Machine

/-- The steps ENC.BYTE on each byte in order. -/
def State.encBytes (bs : List Byte) (s : State) : State :=
  bs.foldl (fun t b => t.encByte b) s

/-- The burst: the sixteen reordered bytes, then the unpadded close, as one atomic step.
The strap is read once; ENC is not tested for an open message (R143, R146). -/
def State.umxId (id : Ident) (s : State) : State :=
  (s.encBytes (reorder id s.hostLe).toList).encEnd

/-- UMX.ID (R143). -/
def execUmxId (id : Ident) (s : State) : Host.Outcome State Fault Refusal :=
  s.onEnc (State.umxId id)

end Sys2Proof.Machine
end

