-- ==== Sys2Proof/Machine/Dispatch.lean ====
section
/-! DEFINITION. The dispatch: one arm per constructor of Instr, each a direct call of that instruction's meaning. -/

namespace Sys2Proof.Machine

def exec (i : Instr) (s : State) : Host.Outcome State Fault Refusal :=
  match i with
  | .encByte b => Sys2Proof.Machine.execEncByte b s
  | .encEnd payload => Sys2Proof.Machine.execEncEnd payload s
  | .encEndp payload => Sys2Proof.Machine.execEncEndp payload s
  | .encReserved payload => Sys2Proof.Machine.execEncReserved payload s
  | .decChar c => Sys2Proof.Machine.execDecChar c s
  | .decEnd payload => Sys2Proof.Machine.execDecEnd payload s
  | .umxId id => Sys2Proof.Machine.execUmxId id s

end Sys2Proof.Machine
end

