-- ==== Sys2Proof/Machine/Step.lean ====
section
/-! DEFINITION. One step of the block: the host's next action is taken. Placing a word where the next step takes it. -/

namespace Sys2Proof.Machine

/-- A token is decoded and executed; a reset or a strap setting acts; a token that coincides with a reset is not processed (R190);
with no action pending the state is held (R185). -/
def step (s : State) : Host.Outcome State Fault Refusal :=
  match s.input with
  | [] => .next s.idle
  | .token w :: _ => exec (decode w) s.dropAction
  | .reset _ :: _ => .next s.dropAction.takeReset
  | .strap b :: _ => .next (s.dropAction.setStrap b)

/-- `s` with the instruction of the opcode table's numbering presented as the host's next action (log 10).
A number that is no token of any port leaves `s` as it is. -/
def State.withFetchWord (s : State) (nbits w : Nat) : State :=
  match wordOfTable nbits w with
  | .ok pw => s.present (.token pw)
  | .error _ => s

end Sys2Proof.Machine
end

