-- ==== Sys2Proof/Machine/Codec.lean ====
section
/-! DEFINITION. The message-level functions (R9): Encode (R100), Decode (R120), IdentifierToBase32 (R141), written on bitstreams as the source states them and independent of the step rules. -/

namespace Sys2Proof.Codec

open Sys2Proof.Machine

/-- The bits of a vector, most significant first (R51). -/
def bitsMsbFirst {n : Nat} (v : BitVec n) : List Bool := (List.range n).map v.getMsbD

/-- The number whose bits, earliest most significant, are the list (R10). -/
def valueOfBits (l : List Bool) : Nat := l.foldl (fun a b => 2 * a + b.toNat) 0

/-- `bits(B)` (R51). -/
def bytesToBits (bs : List Byte) : List Bool := bs.flatMap bitsMsbFirst

/-- The bitstream of a group sequence (R51). -/
def groupsToBits (gs : List Group) : List Bool := gs.flatMap bitsMsbFirst

/-- The `w` bits at bitstream positions `w * i` to `w * i + w - 1`. -/
def chunkAt (w : Nat) (z : List Bool) (i : Nat) : BitVec w := BitVec.ofNat w (valueOfBits ((z.drop (w * i)).take w))

/-- `S = ceil(8 N / 5)` (R100). -/
def symbolCount (n : Nat) : Nat := (8 * n + 4) / 5

/-- The groups `G[0]` to `G[S-1]` of a byte sequence, the last one filled with zero bits (R100). -/
def encodeGroups (bs : List Byte) : List Group :=
  let l := 8 * bs.length
  let n := symbolCount bs.length
  let z := bytesToBits bs ++ List.replicate (5 * n - l) false
  (List.range n).map (chunkAt 5 z)

/-- `Encode(B, padded)` (R100). -/
def encode (bs : List Byte) (padded : Bool) : List Code :=
  let syms := (encodeGroups bs).map alpha
  if padded then syms ++ List.replicate ((8 - syms.length % 8) % 8) padCode else syms

/-- What `Decode` answers (R120). -/
inductive DecodeResult where
  | bytes (d : List Byte)
  | invalidSymbol (c : Code) (p : Nat)
  deriving DecidableEq, Repr

/-- Every trailing `'='` removed (R120 step 1). -/
def strip (cs : List Code) : List Code := (cs.reverse.dropWhile fun c => c == padCode).reverse

/-- The values of the characters, or the first one that is no symbol, with its index counted from `i` (R120 step 2). -/
def mapSymbols : Nat → List Code → Except (Code × Nat) (List Group)
  | _, [] => .ok []
  | i, c :: cs =>
    match rev c with
    | .sym v =>
      match mapSymbols (i + 1) cs with
      | .ok vs => .ok (v :: vs)
      | .error e => .error e
    | .pad => .error (c, i)
    | .inv => .error (c, i)

/-- The bytes of a group sequence, trailing bits discarded (R120 step 3, R121). -/
def assemble (gs : List Group) : List Byte :=
  (List.range (5 * gs.length / 8)).map (chunkAt 8 (groupsToBits gs))

/-- `Decode(s)` (R120). -/
def decode (cs : List Code) : DecodeResult :=
  match mapSymbols 0 (strip cs) with
  | .ok vs => .bytes (assemble vs)
  | .error e => .invalidSymbol e.1 e.2

/-- `IdentifierToBase32(id, le)` (R141). -/
def identifierToBase32 (id : Ident) (le : Bool) : List Code := encode (reorder id le).toList false

end Sys2Proof.Codec
end

