-- ==== Sys2Proof/Machine/Message.lean ====
section
/-! DEFINITION. Messages: the assembler's lines (R85), the message macros and how their results are read off the output streams (R86, R133, R180). -/

namespace Sys2Proof.Machine

/-- One line of the token-stream notation (R85). -/
inductive AsmLine where
  | encByte (b : Byte)
  | encEnd
  | encEndp
  | decChar (c : Code)
  | decEnd
  | umxId (id : Ident)
  | reset
  | strap (hostLe : Bool)
  deriving DecidableEq, Repr

/-- What the assembler makes of a line; ignored payloads are written as zeros (R81, R85). -/
def assembleLine : AsmLine → HostAction
  | .encByte b => .token (encode (.encByte b))
  | .encEnd => .token (encode (.encEnd 0))
  | .encEndp => .token (encode (.encEndp 0))
  | .decChar c => .token (encode (.decChar c))
  | .decEnd => .token (encode (.decEnd 0))
  | .umxId id => .token (encode (.umxId id))
  | .reset => .reset []
  | .strap b => .strap b

/-- `ENCODE [b0, ...], pad` or `nopad` (R86). -/
def macroEncode (bs : List Byte) (padded : Bool) : List AsmLine :=
  bs.map .encByte ++ [if padded then .encEndp else .encEnd]

/-- `DECODE "c0c1..."` (R86). -/
def macroDecode (cs : List Code) : List AsmLine := cs.map .decChar ++ [.decEnd]

/-- `ID2B32 id` (R86). -/
def macroId2b32 (id : Ident) : List AsmLine := [.umxId id]

/-- The result of ENCODE and ID2B32: the CHAR payloads up to the next EOM (R86). -/
def encResult : List EncOut → Option (List Code)
  | [] => none
  | .eom :: _ => some []
  | .char c :: ts => (encResult ts).map (c :: ·)

/-- The tokens of a `DEC_OUT` message before its EOM, and the flag the EOM carries. -/
def decMessage : List DecOut → Option (List DecOut × Bool)
  | [] => none
  | .eom e :: _ => some ([], e)
  | t :: ts => (decMessage ts).map fun m => (t :: m.1, m.2)

/-- The BYTE payloads of a message. -/
def byteTokens (ts : List DecOut) : List Byte :=
  ts.filterMap fun t => match t with
    | .byte b => some b
    | .err _ _ => none
    | .eom _ => none

/-- The character and position of a message's ERR token. -/
def errToken (ts : List DecOut) : Option (Code × Nat) :=
  ts.findSome? fun t => match t with
    | .byte _ => none
    | .err c p => some (c, p)
    | .eom _ => none

/-- The result of DECODE: the bytes if the EOM carries 0; if it carries 1, the failure with the ERR token's character and
position, the bytes before it being void (R86, R133, R180). -/
def decResult (ts : List DecOut) : Option Codec.DecodeResult :=
  match decMessage ts with
  | none => none
  | some (m, false) => some (.bytes (byteTokens m))
  | some (m, true) => (errToken m).map fun e => .invalidSymbol e.1 e.2

end Sys2Proof.Machine
end

