-- ==== Sys2Proof/Safety.lean ====
section
/-! DEFINITION. The terms claims use: runs of instructions, the invariants of the block, the host's duties, and complete runs (R22 to R25, R74, R193 to R204). -/

namespace Sys2Proof.Machine

/-- The next state an outcome holds, if it holds one. -/
def nextState? : Host.Outcome State Fault Refusal → Option State
  | .next s => some s
  | .fault _ => none
  | .refused _ => none

/-- Instructions executed one after the other, stopping at the first fault or refusal. -/
def execAll : List Instr → State → Host.Outcome State Fault Refusal
  | [], s => .next s
  | i :: is, s =>
    match exec i s with
    | .next t => execAll is t
    | .fault f => .fault f
    | .refused r => .refused r

/-- The pairs (`e_n`, `e_sym8`) that ENC can hold (R23). -/
def encPairs : List (Nat × Nat) := [(0, 0), (3, 1), (1, 3), (4, 4), (2, 6)]

/-- ENC's counters are one of the five pairs of R23. -/
def EncRegs.paired (r : EncRegs) : Bool := encPairs.contains (r.eN.val, r.eSym8.val)

/-- The block's register invariant: R22, R23, the residue and width bounds of R24 and R25, and `POSW` at least 1 (R6). -/
def State.inv (s : State) : Bool :=
  decide (1 ≤ s.posw) && s.enc.legal && s.enc.paired && s.dec.legal s.posw

/-- The 33 codes ENC emits: the alphabet and `'='` (R74, R108). -/
def emittedCode (c : Code) : Bool :=
  (decide (0x41 ≤ c.toNat) && decide (c.toNat ≤ 0x5A)) || (decide (0x32 ≤ c.toNat) && decide (c.toNat ≤ 0x37)) || c == padCode

/-- A token `ENC_OUT` may carry (R74). -/
def encTokenOk : EncOut → Bool
  | .char c => emittedCode c
  | .eom => true

/-- A token `DEC_OUT` may carry: a position is below `2^POSW`, an offending character is no alphabet symbol (R74, R170). -/
def decTokenOk (posw : Nat) : DecOut → Bool
  | .byte _ => true
  | .err c p => decide (p < 2 ^ posw) && (rev c == .inv || rev c == .pad)
  | .eom _ => true

/-- Both output histories hold only tokens their ports may carry (R74). -/
def State.outputsOk (s : State) : Bool := s.encOut.all encTokenOk && s.decOut.all (decTokenOk s.posw)

/-- The instructions whose steps are ENC's (R20, R60); UMX.ID is a burst of ENC steps. -/
def onEncSide : Instr → Bool
  | .encByte _ => true
  | .encEnd _ => true
  | .encEndp _ => true
  | .encReserved _ => false
  | .decChar _ => false
  | .decEnd _ => false
  | .umxId _ => true

/-- The instructions whose steps are DEC's (R20, R60). -/
def onDecSide : Instr → Bool
  | .encByte _ => false
  | .encEnd _ => false
  | .encEndp _ => false
  | .encReserved _ => false
  | .decChar _ => true
  | .decEnd _ => true
  | .umxId _ => false

/-- Whether ENC's message is open after an instruction; UMX.ID's burst ends in ENC.END (R8, R143, R194; log 18). -/
def encOpenAfter (i : Instr) (o : Bool) : Bool :=
  match i with
  | .encByte _ => true
  | .encEnd _ => false
  | .encEndp _ => false
  | .encReserved _ => o
  | .decChar _ => o
  | .decEnd _ => o
  | .umxId _ => false

/-- Whether DEC's message is open after an instruction (R8). -/
def decOpenAfter (i : Instr) (o : Bool) : Bool :=
  match i with
  | .encByte _ => o
  | .encEnd _ => o
  | .encEndp _ => o
  | .encReserved _ => o
  | .decChar _ => true
  | .decEnd _ => false
  | .umxId _ => o

/-- Whether messages are open, ENC's and DEC's, after the host's actions (R191, R204). -/
def openAfter : List HostAction → Bool × Bool → Bool × Bool
  | [], o => o
  | .token w :: as, o => openAfter as (encOpenAfter (decode w) o.1, decOpenAfter (decode w) o.2)
  | .reset _ :: as, _ => openAfter as (false, false)
  | .strap _ :: as, o => openAfter as o

/-- A run from closed messages is complete when no message is open at its end (R204; log 18). -/
def completeRun (as : List HostAction) : Bool := openAfter as (false, false) == (false, false)

/-- The host never presents the reserved token (R197); a coincident token of a reset is never processed. -/
def neverReserved (as : List HostAction) : Bool :=
  as.all fun a => match a with
    | .token w => (decode w).wellFormed
    | .reset _ => true
    | .strap _ => true

/-- The host presents UMX.ID only with no ENC message open (R194). -/
def umxOnlyBetween : List HostAction → Bool → Bool
  | [], _ => true
  | .token w :: as, o =>
    (match decode w with
      | .umxId _ => !o
      | .encByte _ => true
      | .encEnd _ => true
      | .encEndp _ => true
      | .encReserved _ => true
      | .decChar _ => true
      | .decEnd _ => true) && umxOnlyBetween as (encOpenAfter (decode w) o)
  | .reset _ :: as, _ => umxOnlyBetween as false
  | .strap _ :: as, o => umxOnlyBetween as o

/-- A `DEC_OUT` token with its position field forgotten (R200). -/
def forgetTokenPos : DecOut → DecOut
  | .byte b => .byte b
  | .err c _ => .err c 0
  | .eom e => .eom e

/-- DEC's registers with the two positions forgotten (R200). -/
def DecRegs.forgetPos (r : DecRegs) : DecRegs := { r with dPos := 0, dPadpos := 0 }

/-- The tokens DEC is to emit for a message, by R132: the bytes and EOM(0), or the bytes of the part before the offending
character, ERR and EOM(1); the position is reported modulo `2^POSW` (R200). -/
def decodeTokens (posw : Nat) (cs : List Code) : List DecOut :=
  match Codec.decode cs with
  | .bytes d => d.map .byte ++ [.eom false]
  | .invalidSymbol c p =>
    (match Codec.decode (cs.take p) with
      | .bytes d => d.map .byte
      | .invalidSymbol _ _ => []) ++ [.err c (p % 2 ^ posw), .eom true]

/-- The tokens ENC is to emit for a message, by R110. -/
def encodeTokens (bs : List Byte) (padded : Bool) : List EncOut := (Codec.encode bs padded).map .char ++ [.eom]

/-- All of the host's pending actions taken, one step each. -/
def runInput (s : State) : Host.Outcome State Fault Refusal := Host.Core.run Sys2Proof.core s.input.length s

end Sys2Proof.Machine

namespace Sys2Proof.Codec

/-- The codes of `'A'` to `'Z'` and `'2'` to `'7'` (R75, R155). -/
def symbolCode (c : Code) : Bool :=
  (decide (0x41 ≤ c.toNat) && decide (c.toNat ≤ 0x5A)) || (decide (0x32 ≤ c.toNat) && decide (c.toNat ≤ 0x37))

/-- The last `(5 × len) mod 8` bits of a string's bitstream are zero; false for a string with a character that is no symbol (R161). -/
def trailingBitsZero (cs : List Code) : Bool :=
  match mapSymbols 0 cs with
  | .ok vs => ((groupsToBits vs).drop (5 * cs.length - 5 * cs.length % 8)).all (fun b => !b)
  | .error _ => false

/-- The canonical strings: the ones `Encode` gives back (R161). -/
def canonical (cs : List Code) : Bool :=
  cs.all symbolCode && [0, 2, 4, 5, 7].contains (cs.length % 8) && trailingBitsZero cs

end Sys2Proof.Codec
end

