-- ==== Sys2Proof/Certificates/Slice0/Obligations.lean ====
section
/-! DEFINITION. The statements for the provers, each from the spec's numbered rules. -/

open Sys2Proof Sys2Proof.Machine

/-! ## Tokens and their words -/

/-- Every instruction, with every operand, is read back from the word the encoder gives it (formats of 30 R71 to R73). That the end tokens and
the reserved kind carry their payload, so that it is read back too, is the model's choice (log 9). -/
def Obligations.DecodeOfEncodeIsTheInstruction : Prop := ∀ i : Instr, decode (encode i) = i

/-- Every word of every port is the encoding of what it decodes to, so no two words decode to one instruction. For the 256 payloads of
each end token and of the reserved kind this is the model's choice and not the spec's (log 9, DESIGN CHOICE: the constructors keep the
ignored payload): R79 and R81 give those words no operand and one step. -/
def Obligations.EncodeOfDecodeIsTheWord : Prop := ∀ w : PortWord, encode (decode w) = w

/-- The formats of R71, R72 and R73: the kind field picks the instruction, the payload is the operand of ENC.BYTE and DEC.CHAR, the
identifier's bytes are the sixteen slices of the bus, every 9-bit word is legal. That the three end tokens and the reserved kind keep
their payload is the model's choice (log 9, DESIGN CHOICE): the spec gives them no operand (R81). -/
def Obligations.KindFieldPicksTheInstruction : Prop :=
  (∀ w : BitVec 10,
    (w.extractLsb' 8 2 = 0#2 → decode (.encIn w) = .encByte (w.extractLsb' 0 8)) ∧
    (w.extractLsb' 8 2 = 1#2 → decode (.encIn w) = .encEnd (w.extractLsb' 0 8)) ∧
    (w.extractLsb' 8 2 = 2#2 → decode (.encIn w) = .encEndp (w.extractLsb' 0 8)) ∧
    (w.extractLsb' 8 2 = 3#2 → decode (.encIn w) = .encReserved (w.extractLsb' 0 8))) ∧
  (∀ w : BitVec 9,
    (w.extractLsb' 8 1 = 0#1 → decode (.decIn w) = .decChar (w.extractLsb' 0 8)) ∧
    (w.extractLsb' 8 1 = 1#1 → decode (.decIn w) = .decEnd (w.extractLsb' 0 8)) ∧
    (decode (.decIn w)).wellFormed = true) ∧
  (∀ w : BitVec 128, ∃ id : Ident,
    decode (.umxIn w) = .umxId id ∧ ∀ i : Fin 16, id[i] = w.extractLsb' (120 - 8 * i.val) 8)

/-- The opcode map of R79: exactly one row of the table covers a word, and it is the row of the instruction the word decodes to. -/
def Obligations.OneOpcodeRowCoversEachWord : Prop :=
  ∀ w : PortWord, ∃ r ∈ opcodeTable, r.covers w = true ∧ r.mnemonic = (decode w).mnemonic ∧
    ∀ r' ∈ opcodeTable, r'.covers w = true → r' = r

/-- R82: each of the words 0x300 to 0x3FF of `ENC_IN` is refused in every state, by `exec` and by a step, and no other word
of any port is reserved. -/
def Obligations.ReservedKindIsRefused : Prop :=
  (∀ (w : BitVec 10) (s : State), 0x300 ≤ w.toNat →
    exec (decode (.encIn w)) s = .refused .reservedToken ∧ step (s.present (.token (.encIn w))) = .refused .reservedToken) ∧
  (∀ (p : Byte) (s : State), exec (.encReserved p) s = .refused .reservedToken) ∧
  (∀ w : PortWord, (decode w).wellFormed = false ↔ ∃ v : BitVec 10, w = .encIn v ∧ 0x300 ≤ v.toNat)

/-- R81: the payload of the three end tokens changes nothing, is not reserved, and the assembler writes zeros there. -/
def Obligations.EndPayloadIsIgnored : Prop :=
  (∀ (p q : Byte) (s : State),
    exec (.encEnd p) s = exec (.encEnd q) s ∧ exec (.encEndp p) s = exec (.encEndp q) s ∧
    exec (.decEnd p) s = exec (.decEnd q) s) ∧
  (∀ p : Byte, (Instr.encEnd p).wellFormed = true ∧ (Instr.encEndp p).wellFormed = true ∧ (Instr.decEnd p).wellFormed = true) ∧
  assembleLine .encEnd = .token (.encIn 0x100#10) ∧ assembleLine .encEndp = .token (.encIn 0x200#10) ∧
  assembleLine .decEnd = .token (.decIn 0x100#9)

/-- Words written out from R71 to R73 decode to the instructions they stand for; the payloads that the end tokens and the reserved kind
show here are kept by the model's choice (log 9). -/
def Obligations.SampleWordsDecode : Prop :=
  decode (.encIn 0b0001100110#10) = .encByte 0x66 ∧
  decode (.encIn 0b0100000000#10) = .encEnd 0 ∧
  decode (.encIn 0b1000000001#10) = .encEndp 1 ∧
  decode (.encIn 0b1111111111#10) = .encReserved 0xFF ∧
  decode (.decIn 0b000111101#9) = .decChar 0x3D ∧
  decode (.decIn 0b100000000#9) = .decEnd 0 ∧
  decode (.umxIn 0x33221100554477668899AABBCCDDEEFF#128) =
    .umxId #v[0x33, 0x22, 0x11, 0x00, 0x55, 0x44, 0x77, 0x66, 0x88, 0x99, 0xAA, 0xBB, 0xCC, 0xDD, 0xEE, 0xFF]

/-- The fields of the output words: R74's tables. A BYTE or EOM has position 0, an EOM's data is its flag, kind 3 never occurs (R83). -/
def Obligations.OutputWordFields : Prop :=
  (∀ c : Code, (EncOut.char c).word.extractLsb' 8 1 = 0#1 ∧ (EncOut.char c).word.extractLsb' 0 8 = c) ∧
  EncOut.eom.word = 0x100#9 ∧
  (∀ (posw : Nat) (b : Byte),
    ((DecOut.byte b).word posw).extractLsb' (posw + 8) 2 = 0#2 ∧ ((DecOut.byte b).word posw).extractLsb' posw 8 = b ∧
    ((DecOut.byte b).word posw).extractLsb' 0 posw = 0#posw) ∧
  (∀ (posw : Nat) (c : Code) (p : Nat),
    ((DecOut.err c p).word posw).extractLsb' (posw + 8) 2 = 1#2 ∧ ((DecOut.err c p).word posw).extractLsb' posw 8 = c ∧
    (((DecOut.err c p).word posw).extractLsb' 0 posw).toNat = p % 2 ^ posw) ∧
  (∀ (posw : Nat) (e : Bool),
    ((DecOut.eom e).word posw).extractLsb' (posw + 8) 2 = 2#2 ∧
    ((DecOut.eom e).word posw).extractLsb' posw 8 = (if e then 1#8 else 0#8) ∧
    ((DecOut.eom e).word posw).extractLsb' 0 posw = 0#posw)

/-! ## The tables -/

/-- R76: `ALPHA`, entry by entry, and its one-to-one-ness. -/
def Obligations.AlphabetTable : Prop :=
  (List.range 32).map (fun v => alpha (BitVec.ofNat 5 v)) =
    [0x41, 0x42, 0x43, 0x44, 0x45, 0x46, 0x47, 0x48, 0x49, 0x4A, 0x4B, 0x4C, 0x4D, 0x4E, 0x4F, 0x50,
     0x51, 0x52, 0x53, 0x54, 0x55, 0x56, 0x57, 0x58, 0x59, 0x5A, 0x32, 0x33, 0x34, 0x35, 0x36, 0x37] ∧
  (∀ v v' : Group, alpha v = alpha v' → v = v') ∧
  (∀ v : Group, alpha v ≠ padCode)

/-- R77 and R78: `CaseNorm` and `REV` on every code, the counts of the three classes, and `REV` as the inverse of `ALPHA`. -/
def Obligations.ReverseTable : Prop :=
  (∀ c : Code, caseNorm c = if 0x61 ≤ c.toNat ∧ c.toNat ≤ 0x7A then c - 0x20#8 else c) ∧
  (∀ c : Code,
    (0x41 ≤ c.toNat ∧ c.toNat ≤ 0x5A → rev c = .sym (BitVec.ofNat 5 (c.toNat - 0x41))) ∧
    (0x61 ≤ c.toNat ∧ c.toNat ≤ 0x7A → rev c = .sym (BitVec.ofNat 5 (c.toNat - 0x61))) ∧
    (0x32 ≤ c.toNat ∧ c.toNat ≤ 0x37 → rev c = .sym (BitVec.ofNat 5 (c.toNat - 0x32 + 26))) ∧
    (c.toNat = 0x3D → rev c = .pad) ∧
    (c.toNat ≤ 0x31 ∨ (0x38 ≤ c.toNat ∧ c.toNat ≤ 0x3C) ∨ (0x3E ≤ c.toNat ∧ c.toNat ≤ 0x40) ∨
      (0x5B ≤ c.toNat ∧ c.toNat ≤ 0x60) ∨ 0x7B ≤ c.toNat → rev c = .inv)) ∧
  (((List.range 256).map fun n => rev (BitVec.ofNat 8 n)).countP fun k => k != .pad && k != .inv) = 58 ∧
  (((List.range 256).map fun n => rev (BitVec.ofNat 8 n)).countP fun k => k == .pad) = 1 ∧
  (((List.range 256).map fun n => rev (BitVec.ofNat 8 n)).countP fun k => k == .inv) = 197 ∧
  (∀ v : Group, rev (alpha v) = .sym v) ∧
  (∀ (c : Code) (v : Group), rev c = .sym v → alpha v = caseNorm c)

/-! ## The step, the host's actions, reset -/

/-- The bits a step takes are decoded and the instruction executed, the token being off the input (R7, R79). The second clause, that a word
placed by the table's numbering runs as the next instruction, rests on the model's choice of how that numbering, which names no port, is
read: 16 bits as `ENC_IN` (log 10, DESIGN CHOICE). -/
def Obligations.StepRunsTheDecodedToken : Prop :=
  (∀ (s : State) (w : PortWord) (rest : List HostAction) (i : Instr),
    s.input = .token w :: rest → decode w = i → step s = exec i { s with input := rest }) ∧
  (∀ (s : State) (nbits w : Nat) (i : Instr),
    decodeTableWord nbits w = some i → step (s.withFetchWord nbits w) = exec i s)

/-- R190: reset puts every register to zero in every state, emits nothing, leaves the strap, and wins over coincident tokens. -/
def Obligations.ResetEventClearsTheRegisters : Prop :=
  ∀ (s : State) (coincident : List PortWord) (rest : List HostAction), s.input = .reset coincident :: rest →
    step s = .next
      { s with
        input := rest
        enc := { eAcc := 0, eN := 0, eSym8 := 0 }
        dec := { dAcc := 0, dN := 0, dPos := 0, dPad := false, dPadpos := 0, dErr := false } }

/-- R34: the reset state of every register is zero. -/
def Obligations.ResetStateIsZero : Prop :=
  State.reset.enc.eAcc = 0 ∧ State.reset.enc.eN = 0 ∧ State.reset.enc.eSym8 = 0 ∧
  State.reset.dec.dAcc = 0 ∧ State.reset.dec.dN = 0 ∧ State.reset.dec.dPos = 0 ∧
  State.reset.dec.dPad = false ∧ State.reset.dec.dPadpos = 0 ∧ State.reset.dec.dErr = false ∧
  (∀ s : State, s.takeReset.hostLe = s.hostLe)

/-- The strap's setting changes the strap alone (R29, R85); with no action pending the state is held, the model's reading of R185 (log 4). -/
def Obligations.StrapAndIdleSteps : Prop :=
  (∀ (s : State) (b : Bool) (rest : List HostAction), s.input = .strap b :: rest →
    step s = .next { s with input := rest, hostLe := b }) ∧
  (∀ s : State, s.input = [] → step s = .next s)

/-! ## The encoder -/

/-- R102: what ENC.BYTE does, in the rule's own arithmetic, and its worked example. -/
def Obligations.EncByteResult : Prop :=
  (∀ (s : State) (b : Byte), s.enc.legal = true →
    let t := s.enc.eN.val + 8
    let w := s.enc.eAcc.toNat * 256 + b.toNat
    let g1 : Group := BitVec.ofNat 5 (w / 2 ^ (t - 5) % 32)
    let g2 : Group := BitVec.ofNat 5 (w / 2 ^ (t - 10) % 32)
    let r := if t ≥ 10 then t - 10 else t - 5
    let c := if t ≥ 10 then 2 else 1
    let out : List EncOut := if t ≥ 10 then [.char (alpha g1), .char (alpha g2)] else [.char (alpha g1)]
    ∃ u : EncRegs, u.eAcc.toNat = w % 2 ^ r ∧ u.eN.val = r ∧ u.eSym8.val = (s.enc.eSym8.val + c) % 8 ∧
      exec (.encByte b) s = .next { s with enc := u, encOut := s.encOut ++ out }) ∧
  (∀ s : State, s.enc = EncRegs.reset →
    exec (.encByte 0x66) s =
      .next { s with enc := { eAcc := 6, eN := 3, eSym8 := 1 }, encOut := s.encOut ++ [.char 0x4D] })

/-- R103, which the spec derives from R102: ENC.BYTE by the five residue counts. -/
def Obligations.EncByteByCases : Prop :=
  ∀ (s : State) (b : Byte), s.enc.legal = true →
    let a := s.enc.eAcc
    (s.enc.eN = 0 → exec (.encByte b) s = .next
      { s with
        enc := { eAcc := (b.extractLsb' 0 3).setWidth 4, eN := 3, eSym8 := s.enc.eSym8 + 1 }
        encOut := s.encOut ++ [.char (alpha (b.extractLsb' 3 5))] }) ∧
    (s.enc.eN = 1 → exec (.encByte b) s = .next
      { s with
        enc := { eAcc := b.extractLsb' 0 4, eN := 4, eSym8 := s.enc.eSym8 + 1 }
        encOut := s.encOut ++ [.char (alpha (a.extractLsb' 0 1 ++ b.extractLsb' 4 4))] }) ∧
    (s.enc.eN = 2 → exec (.encByte b) s = .next
      { s with
        enc := { eAcc := 0, eN := 0, eSym8 := s.enc.eSym8 + 2 }
        encOut := s.encOut ++ [.char (alpha (a.extractLsb' 0 2 ++ b.extractLsb' 5 3)), .char (alpha (b.extractLsb' 0 5))] }) ∧
    (s.enc.eN = 3 → exec (.encByte b) s = .next
      { s with
        enc := { eAcc := (b.extractLsb' 0 1).setWidth 4, eN := 1, eSym8 := s.enc.eSym8 + 2 }
        encOut := s.encOut ++ [.char (alpha (a.extractLsb' 0 3 ++ b.extractLsb' 6 2)), .char (alpha (b.extractLsb' 1 5))] }) ∧
    (s.enc.eN = 4 → exec (.encByte b) s = .next
      { s with
        enc := { eAcc := (b.extractLsb' 0 2).setWidth 4, eN := 2, eSym8 := s.enc.eSym8 + 2 }
        encOut := s.encOut ++ [.char (alpha (a.extractLsb' 0 4 ++ b.extractLsb' 7 1)), .char (alpha (b.extractLsb' 2 5))] })

/-- R104: what ENC.END does, and its worked example. -/
def Obligations.EncEndResult : Prop :=
  (∀ (s : State) (p : Byte), s.enc.legal = true →
    let g : Group := BitVec.ofNat 5 (s.enc.eAcc.toNat * 2 ^ (5 - s.enc.eN.val))
    let flush : List EncOut := if 0 < s.enc.eN.val then [.char (alpha g)] else []
    exec (.encEnd p) s =
      .next { s with enc := { eAcc := 0, eN := 0, eSym8 := 0 }, encOut := s.encOut ++ flush ++ [.eom] }) ∧
  (∀ s : State, s.enc = { eAcc := 6, eN := 3, eSym8 := 1 } →
    exec (.encEnd 0) s = .next { s with enc := EncRegs.reset, encOut := s.encOut ++ [.char 0x59, .eom] })

/-- R106: what ENC.ENDP does, the pads counted from the symbols (R107), and its worked example. -/
def Obligations.EncEndpResult : Prop :=
  (∀ (s : State) (p : Byte), s.enc.legal = true →
    let g : Group := BitVec.ofNat 5 (s.enc.eAcc.toNat * 2 ^ (5 - s.enc.eN.val))
    let flush : List EncOut := if 0 < s.enc.eN.val then [.char (alpha g)] else []
    let n := if 0 < s.enc.eN.val then (s.enc.eSym8.val + 1) % 8 else s.enc.eSym8.val
    let pads : List EncOut := List.replicate ((8 - n) % 8) (.char 0x3D)
    (s.enc.paired = true → (8 - n) % 8 ∈ [0, 1, 3, 4, 6]) ∧
    exec (.encEndp p) s =
      .next { s with enc := { eAcc := 0, eN := 0, eSym8 := 0 }, encOut := s.encOut ++ flush ++ pads ++ [.eom] }) ∧
  (∀ s : State, s.enc = { eAcc := 6, eN := 3, eSym8 := 1 } →
    exec (.encEndp 0) s = .next
      { s with
        enc := EncRegs.reset
        encOut := s.encOut ++ [.char 0x59, .char 0x3D, .char 0x3D, .char 0x3D, .char 0x3D, .char 0x3D, .char 0x3D, .eom] })

/-- R110, which the spec derives: from ENC's reset state the steps of a message emit exactly `Encode` of its bytes and EOM, and
end in ENC's reset state. -/
def Obligations.EncoderStepsRefineEncode : Prop :=
  ∀ (s : State) (bs : List Byte) (p : Byte), s.enc = EncRegs.reset →
    execAll (bs.map .encByte ++ [.encEnd p]) s = .next { s with encOut := s.encOut ++ encodeTokens bs false } ∧
    execAll (bs.map .encByte ++ [.encEndp p]) s = .next { s with encOut := s.encOut ++ encodeTokens bs true }

/-- R23, which the spec derives: after `k` bytes of a message, the counters by `k`. -/
def Obligations.EncoderCountersFollowTheByteCount : Prop :=
  ∀ (s : State) (bs : List Byte), s.enc = EncRegs.reset →
    ∃ t : State, execAll (bs.map .encByte) s = .next t ∧
      8 * bs.length = 5 * (8 * bs.length / 5) + t.enc.eN.val ∧
      t.enc.eSym8.val = (8 * bs.length / 5) % 8 ∧
      t.encOut.length = s.encOut.length + 8 * bs.length / 5 ∧
      (bs.length % 5, t.enc.eN.val, t.enc.eSym8.val) ∈ [(0, 0, 0), (1, 3, 1), (2, 1, 3), (3, 4, 4), (4, 2, 6)]

/-! ## The decoder -/

/-- R124: a symbol in mode NORMAL, in the rule's own arithmetic, and its worked example. -/
def Obligations.DecSymbolInNormalMode : Prop :=
  (∀ (s : State) (c : Code) (v : Group),
    s.dec.legal s.posw = true → s.dec.dErr = false → s.dec.dPad = false → rev c = .sym v →
    let t := s.dec.dN.val + 5
    let w := s.dec.dAcc.toNat * 32 + v.toNat
    let r := if t ≥ 8 then t - 8 else t
    let out : List DecOut := if t ≥ 8 then [.byte (BitVec.ofNat 8 (w / 2 ^ (t - 8) % 256))] else []
    ∃ u : DecRegs, u.dAcc.toNat = w % 2 ^ r ∧ u.dN.val = r ∧ u.dPos = (s.dec.dPos + 1) % 2 ^ s.posw ∧
      u.dPad = s.dec.dPad ∧ u.dPadpos = s.dec.dPadpos ∧ u.dErr = s.dec.dErr ∧
      exec (.decChar c) s = .next { s with dec := u, decOut := s.decOut ++ out }) ∧
  (∀ (s : State) (c c' : Code) (v : Group), rev c = .sym v → rev c' = .sym v → exec (.decChar c) s = exec (.decChar c') s) ∧
  (∀ s : State, s.dec = DecRegs.reset → 2 ≤ s.posw →
    exec (.decChar 0x4D) s = .next
      { s with dec := { dAcc := 0b0001100, dN := 5, dPos := 1, dPad := false, dPadpos := 0, dErr := false } } ∧
    execAll [.decChar 0x4D, .decChar 0x59] s = .next
      { s with
        dec := { dAcc := 0, dN := 2, dPos := 2, dPad := false, dPadpos := 0, dErr := false }
        decOut := s.decOut ++ [.byte 0x66] })

/-- R125 and R128: a symbol or a foreign character after an `'='` raises InvalidSymbol on the first `'='` of the run, with the
two worked examples. -/
def Obligations.DecBrokenPadRunBlamesItsFirstPad : Prop :=
  (∀ (s : State) (c : Code),
    s.dec.legal s.posw = true → s.dec.dErr = false → s.dec.dPad = true → rev c ≠ .pad →
    exec (.decChar c) s = .next
      { s with dec := { s.dec with dErr := true }, decOut := s.decOut ++ [.err 0x3D s.dec.dPadpos] }) ∧
  (∀ (s : State) (c : Code), s.dec = DecRegs.reset → 2 ≤ s.posw → c = 0x41 ∨ c = 0x31 →
    execAll [.decChar 0x41, .decChar 0x41, .decChar 0x3D, .decChar c] s = .next
      { s with
        dec := { dAcc := 0, dN := 2, dPos := 3, dPad := true, dPadpos := 2, dErr := true }
        decOut := s.decOut ++ [.byte 0x00, .err 0x3D 2] })

/-- R126: an `'='` in mode NORMAL or PADRUN opens or continues the run, and its worked example. -/
def Obligations.DecPadCharacterDefersTheVerdict : Prop :=
  (∀ (s : State) (c : Code), s.dec.legal s.posw = true → s.dec.dErr = false → rev c = .pad →
    c = 0x3D ∧
    exec (.decChar c) s = .next
      { s with
        dec :=
          { s.dec with
            dPad := true
            dPadpos := if s.dec.dPad = false then s.dec.dPos else s.dec.dPadpos
            dPos := (s.dec.dPos + 1) % 2 ^ s.posw } }) ∧
  (∀ s : State, s.dec = { dAcc := 0, dN := 2, dPos := 2, dPad := false, dPadpos := 0, dErr := false } → 3 ≤ s.posw →
    exec (.decChar 0x3D) s = .next
      { s with dec := { dAcc := 0, dN := 2, dPos := 3, dPad := true, dPadpos := 2, dErr := false } } ∧
    execAll [.decChar 0x3D, .decChar 0x3D] s = .next
      { s with dec := { dAcc := 0, dN := 2, dPos := 4, dPad := true, dPadpos := 2, dErr := false } })

/-- R127: a foreign character in mode NORMAL raises InvalidSymbol on itself, and its worked example. -/
def Obligations.DecForeignCharacterRaises : Prop :=
  (∀ (s : State) (c : Code),
    s.dec.legal s.posw = true → s.dec.dErr = false → s.dec.dPad = false → rev c = .inv →
    caseNorm c = c ∧
    exec (.decChar c) s = .next
      { s with dec := { s.dec with dErr := true }, decOut := s.decOut ++ [.err c s.dec.dPos] }) ∧
  (∀ s : State, s.dec = DecRegs.reset →
    exec (.decChar 0x30) s = .next
      { s with dec := { DecRegs.reset with dErr := true }, decOut := s.decOut ++ [.err 0x30 0] })

/-- R129: in mode ERROR every character is swallowed. -/
def Obligations.DecErrorModeSwallows : Prop :=
  ∀ (s : State) (c : Code), s.dec.legal s.posw = true → s.dec.dErr = true → exec (.decChar c) s = .next s

/-- R130: what DEC.END does, and its worked example. -/
def Obligations.DecEndResult : Prop :=
  (∀ (s : State) (p : Byte), s.dec.legal s.posw = true →
    exec (.decEnd p) s = .next
      { s with
        dec := { dAcc := 0, dN := 0, dPos := 0, dPad := false, dPadpos := 0, dErr := false }
        decOut := s.decOut ++ [.eom s.dec.dErr] }) ∧
  (∀ s : State, s.dec = DecRegs.reset →
    execAll [.decChar 0x4D, .decChar 0x59, .decChar 0x3D, .decChar 0x3D, .decChar 0x3D, .decChar 0x3D, .decChar 0x3D,
        .decChar 0x3D, .decEnd 0] s =
      .next { s with decOut := s.decOut ++ [.byte 0x66, .eom false] })

/-- R132, which the spec derives: from DEC's reset state the steps of a message emit exactly what `Decode` of its characters demands,
the position modulo `2^POSW` (exact below it), and end in DEC's reset state. -/
def Obligations.DecoderStepsRefineDecode : Prop :=
  ∀ (s : State) (cs : List Code) (p : Byte), s.dec = DecRegs.reset →
    execAll (cs.map .decChar ++ [.decEnd p]) s = .next { s with decOut := s.decOut ++ decodeTokens s.posw cs }

/-- R172 with R170 and R173: only DEC.CHAR emits an ERR; it does so only with `d_err = 0`, sets the flag, changes nothing else, and
reports the open run's first `'='` or else the character itself; and the flag is never set without that report. -/
def Obligations.RaiseIsPreciseAndReported : Prop :=
  (∀ (i : Instr) (s t : State) (c' : Code) (p : Nat),
    exec i s = .next t → t.decOut = s.decOut ++ [.err c' p] →
    ∃ c : Code, i = .decChar c ∧ s.dec.dErr = false ∧
      (c', p) = (if s.dec.dPad then (0x3D, s.dec.dPadpos) else (c, s.dec.dPos)) ∧
      t = { s with dec := { s.dec with dErr := true }, decOut := s.decOut ++ [.err c' p] }) ∧
  (∀ (i : Instr) (s t : State), exec i s = .next t → s.dec.dErr = false → t.dec.dErr = true →
    ∃ (c' : Code) (p : Nat), t.decOut = s.decOut ++ [.err c' p])

/-- R28: over every step of the block, what the two flags become by DEC.CHAR, DEC.END and reset, and that nothing else changes them;
DEC.END copies `d_err` into the EOM it emits before clearing it. -/
def Obligations.FlagsChangeOnlyAsStated : Prop :=
  ∀ s t : State, step s = .next t →
    (∀ (w : PortWord) (rest : List HostAction) (c : Code), s.input = .token w :: rest → decode w = .decChar c →
      (t.dec.dErr = true ↔ s.dec.dErr = true ∨ rev c = .inv ∨ (s.dec.dPad = true ∧ rev c ≠ .pad)) ∧
      (t.dec.dPad = true ↔ s.dec.dPad = true ∨ (s.dec.dErr = false ∧ c = 0x3D))) ∧
    (∀ (w : PortWord) (rest : List HostAction) (p : Byte), s.input = .token w :: rest → decode w = .decEnd p →
      t.dec.dErr = false ∧ t.dec.dPad = false ∧ t.decOut = s.decOut ++ [.eom s.dec.dErr]) ∧
    (∀ (coincident : List PortWord) (rest : List HostAction), s.input = .reset coincident :: rest →
      t.dec.dErr = false ∧ t.dec.dPad = false) ∧
    (s.dec.dErr ≠ t.dec.dErr ∨ s.dec.dPad ≠ t.dec.dPad →
      (∃ (w : PortWord) (rest : List HostAction) (c : Code), s.input = .token w :: rest ∧ decode w = .decChar c) ∨
      (∃ (w : PortWord) (rest : List HostAction) (p : Byte), s.input = .token w :: rest ∧ decode w = .decEnd p) ∨
      (∃ (coincident : List PortWord) (rest : List HostAction), s.input = .reset coincident :: rest))

/-! ## The identifier multiplexer -/

/-- R140: the reorder, byte by byte. -/
def Obligations.ReorderBytes : Prop :=
  ∀ id : Ident,
    reorder id true = #v[id[3], id[2], id[1], id[0], id[5], id[4], id[7], id[6],
      id[8], id[9], id[10], id[11], id[12], id[13], id[14], id[15]] ∧
    reorder id false = id

/-- R142, which the spec derives: the reorder is the lane permutation, its own inverse, and a bijection. -/
def Obligations.ReorderIsALanePermutation : Prop :=
  (∀ (id : Ident) (i : Fin 16), (reorder id true)[i] = id[lanePerm[i]]) ∧
  (∀ i : Fin 16, lanePerm[lanePerm[i]] = i) ∧
  (∀ (id : Ident) (le : Bool), reorder (reorder id le) le = id) ∧
  (∀ le : Bool, Function.Bijective fun id : Ident => reorder id le)

/-- R143: UMX.ID is the burst of sixteen ENC.BYTE steps on the reordered bytes and one ENC.END; from ENC's reset state it appends
26 characters and EOM and leaves ENC reset; DEC is not touched; and its worked example. -/
def Obligations.UmxIdIsTheBurst : Prop :=
  (∀ (s : State) (id : Ident) (p : Byte), s.enc.legal = true →
    ∃ t : State, exec (.umxId id) s = .next t ∧
      execAll ((reorder id s.hostLe).toList.map .encByte ++ [.encEnd p]) s = .next t ∧
      t.dec = s.dec ∧ t.decOut = s.decOut ∧ t.hostLe = s.hostLe ∧ t.posw = s.posw ∧ t.input = s.input) ∧
  (∀ (s : State) (id : Ident), s.enc = EncRegs.reset →
    ∃ cs : List Code, cs.length = 26 ∧
      exec (.umxId id) s = .next { s with encOut := s.encOut ++ cs.map .char ++ [.eom] }) ∧
  (∀ s : State, s.enc = EncRegs.reset → s.hostLe = true →
    exec (.umxId #v[0x33, 0x22, 0x11, 0x00, 0x55, 0x44, 0x77, 0x66, 0x88, 0x99, 0xAA, 0xBB, 0xCC, 0xDD, 0xEE, 0xFF]) s =
      .next { s with
        encOut := s.encOut ++
          ([0x41, 0x41, 0x49, 0x53, 0x45, 0x4D, 0x32, 0x45, 0x4B, 0x56, 0x54, 0x48, 0x50, 0x43, 0x45, 0x5A, 0x56, 0x4B, 0x35,
            0x34, 0x5A, 0x58, 0x50, 0x4F, 0x37, 0x34].map EncOut.char ++ [.eom]) })

/-- R141 on the machine: between messages UMX.ID emits `IdentifierToBase32` of its operand and the strap, and EOM. -/
def Obligations.UmxIdRefinesIdentifierToBase32 : Prop :=
  ∀ (s : State) (id : Ident), s.enc = EncRegs.reset →
    Codec.identifierToBase32 id s.hostLe = Codec.encode (reorder id s.hostLe).toList false ∧
    exec (.umxId id) s =
      .next { s with encOut := s.encOut ++ (Codec.identifierToBase32 id s.hostLe).map .char ++ [.eom] }

/-- R146: presented inside an open message, UMX.ID appends its bytes to it and closes it unpadded. -/
def Obligations.UmxIdInsideAnOpenMessage : Prop :=
  ∀ (s : State) (bs : List Byte) (id : Ident), s.enc = EncRegs.reset →
    execAll (bs.map .encByte ++ [.umxId id]) s =
      .next { s with encOut := s.encOut ++ encodeTokens (bs ++ (reorder id s.hostLe).toList) false }

/-- R144, which the spec derives: 26 symbols, no `'='`, and the last one's value a multiple of 4. -/
def Obligations.IdentifierStringShape : Prop :=
  ∀ (id : Ident) (le : Bool),
    (Codec.identifierToBase32 id le).length = 26 ∧ padCode ∉ Codec.identifierToBase32 id le ∧
    ∃ c ∈ [0x41, 0x45, 0x49, 0x4D, 0x51, 0x55, 0x59, 0x34], (Codec.identifierToBase32 id le).getLast? = some (BitVec.ofNat 8 c)

/-- R145 and R159: for a fixed strap distinct identifiers give distinct strings; the two straps agree exactly on the identifiers the
lanes leave alone; no string tells the strap. -/
def Obligations.IdentifierStringsAreDistinct : Prop :=
  (∀ (id id' : Ident) (le : Bool), id ≠ id' → Codec.identifierToBase32 id le ≠ Codec.identifierToBase32 id' le) ∧
  (∀ id : Ident, Codec.identifierToBase32 id true = Codec.identifierToBase32 id false ↔
    id[0] = id[3] ∧ id[1] = id[2] ∧ id[4] = id[5] ∧ id[6] = id[7]) ∧
  (∀ id : Ident, ∃ id' : Ident, Codec.identifierToBase32 id' false = Codec.identifierToBase32 id true)

/-! ## Laws of the message-level functions -/

/-- R101, R152 and R153: the lengths, and the empty message. -/
def Obligations.EncodeLengths : Prop :=
  (∀ bs : List Byte,
    (Codec.encode bs false).length = (8 * bs.length + 4) / 5 ∧
    (Codec.encode bs true).length = 8 * ((bs.length + 4) / 5) ∧
    (Codec.encode bs true).length % 8 = 0) ∧
  Codec.encode [] false = [] ∧ Codec.encode [] true = []

/-- R155: every symbol an encoding holds is of the alphabet; a padded encoding's rest is `'='`. -/
def Obligations.AlphabetClosure : Prop :=
  ∀ bs : List Byte,
    (∀ c ∈ Codec.encode bs false, Codec.symbolCode c = true) ∧
    (∀ c ∈ (Codec.encode bs true).take ((8 * bs.length + 4) / 5), Codec.symbolCode c = true) ∧
    (∀ c ∈ (Codec.encode bs true).drop ((8 * bs.length + 4) / 5), c = 0x3D)

/-- R150 and R151: decoding an encoding gives the bytes back, unpadded and padded. -/
def Obligations.DecodeOfEncodeIsTheBytes : Prop :=
  ∀ bs : List Byte,
    Codec.decode (Codec.encode bs false) = .bytes bs ∧ Codec.decode (Codec.encode bs true) = .bytes bs

/-- R160, which the spec derives: Encode is injective for each variant, and across the two but for lengths that are multiples of 5. -/
def Obligations.EncodeIsInjective : Prop :=
  (∀ (bs bs' : List Byte) (p : Bool), Codec.encode bs p = Codec.encode bs' p → bs = bs') ∧
  (∀ bs bs' : List Byte, Codec.encode bs true = Codec.encode bs' false ↔ bs = bs' ∧ bs.length % 5 = 0)

/-- R154: decoding does not see case. The source states it for valid strings; that it holds of failing strings too, with the reported
character and position, the spec derives from R77 and R78. -/
def Obligations.DecodeIgnoresCase : Prop :=
  ∀ cs : List Code, Codec.decode cs = Codec.decode (cs.map caseNorm)

/-- R162 and R121: the length of a decoding, and that trailing `'='` of any number are stripped. -/
def Obligations.DecodeLengthAndLeniency : Prop :=
  (∀ (cs : List Code) (d : List Byte), Codec.decode cs = .bytes d → d.length = 5 * (Codec.strip cs).length / 8) ∧
  (∀ (cs : List Code) (k : Nat), Codec.decode (cs ++ List.replicate k 0x3D) = Codec.decode cs) ∧
  (∀ k : Nat, Codec.decode (List.replicate k 0x3D) = .bytes [])

/-- R122, which the spec derives: after symbols only, a run of `'='` followed by anything else is reported at the run's first `'='`. -/
def Obligations.MisplacedPadIsReported : Prop :=
  ∀ (xs rest : List Code) (k : Nat) (c : Code),
    (∀ x ∈ xs, ∃ v, rev x = .sym v) → 1 ≤ k → c ≠ 0x3D →
    Codec.decode (xs ++ List.replicate k 0x3D ++ c :: rest) = .invalidSymbol 0x3D xs.length

/-- R161, which the spec derives: the strings an encoding of their decoding gives back are the canonical ones. -/
def Obligations.CanonicalStringsAreTheFixedPoints : Prop :=
  ∀ cs : List Code,
    (∃ d : List Byte, Codec.decode cs = .bytes d ∧ Codec.encode d false = cs) ↔ Codec.canonical cs = true

/-- R163, which the spec derives: the prefix properties of Encode and Decode. -/
def Obligations.CodecPrefixProperties : Prop :=
  (∀ bs bs' : List Byte,
    (Codec.encode bs false).take (8 * bs.length / 5) <+: Codec.encode (bs ++ bs') false) ∧
  (∀ bs bs' : List Byte, bs.length % 5 = 0 →
    Codec.encode (bs ++ bs') false = Codec.encode bs false ++ Codec.encode bs' false) ∧
  (∀ cs cs' : List Code, (∀ x ∈ cs ++ cs', ∃ v, rev x = .sym v) →
    ∃ d d' e : List Byte, Codec.decode cs = .bytes d ∧ Codec.decode cs' = .bytes d' ∧
      Codec.decode (cs ++ cs') = .bytes e ∧ d <+: e ∧ (cs.length % 8 = 0 → e = d ++ d'))

/-- R156, R157 and R158: the source's vectors, the third as corrected by 90_conflicts.md C1 (log 16). -/
def Obligations.SourceVectors : Prop :=
  Codec.encode [0x00] true = [0x41, 0x41, 0x3D, 0x3D, 0x3D, 0x3D, 0x3D, 0x3D] ∧
  Codec.encode [0x66] true = [0x4D, 0x59, 0x3D, 0x3D, 0x3D, 0x3D, 0x3D, 0x3D] ∧
  Codec.encode [0xFF] false = [0x37, 0x34] ∧
  Codec.encode [0xFE] false = [0x37, 0x59] ∧
  Codec.decode [0x30, 0x31, 0x31, 0x38, 0x39] = .invalidSymbol 0x30 0 ∧
  Codec.encode [] false = [] ∧ Codec.encode [] true = [] ∧ Codec.decode [] = .bytes []

/-! ## The whole block -/

/-- The register invariant (R22, R23, R24, R25) is kept by every step from every state that has it. -/
def Obligations.StepKeepsTheRegisterInvariant : Prop :=
  ∀ s t : State, s.inv = true → step s = .next t → t.inv = true

/-- The register invariant holds at reset. -/
def Obligations.ResetHasTheRegisterInvariant : Prop := State.reset.inv = true

/-- R74, R108 and R170 as an invariant: with the register invariant, the output histories only ever hold tokens their ports may carry. -/
def Obligations.StepKeepsTheOutputsOk : Prop :=
  State.reset.outputsOk = true ∧
  ∀ s t : State, s.inv = true → s.outputsOk = true → step s = .next t → t.outputsOk = true

/-- R83 and R109: from a state with the register invariant a step answers a next state, or refuses the reserved token; nothing else
stops the block. -/
def Obligations.OnlyTheReservedTokenStops : Prop :=
  ∀ s : State, s.inv = true →
    (∃ t : State, step s = .next t) ∨
    (step s = .refused .reservedToken ∧
      ∃ (w : BitVec 10) (rest : List HostAction), s.input = .token (.encIn w) :: rest ∧ 0x300 ≤ w.toNat)

/-- The register values the model refuses, by name, each unit for its own registers: ENC's residue at or above 2^e_n (R22, U6), and by the
model's reading (log 6, DEDUCED) DEC's residue at or above 2^d_n or a position of 2^POSW or more, in every step of that unit, DEC.END
and the ERROR arm among them. The counter pairs and the pad position that U6 also names are not refused (log 7, DEDUCED). -/
def Obligations.IllegalRegistersAreRefused : Prop :=
  ∀ (i : Instr) (s : State),
    (onEncSide i = true → s.enc.legal = false → exec i s = .refused .illegalEncRegisters) ∧
    (onDecSide i = true → s.dec.legal s.posw = false → exec i s = .refused .illegalDecRegisters)

/-- R60: an ENC step (or UMX burst) and a DEC step taken in either order from one state give one final state and one pair of streams. -/
def Obligations.EncAndDecStepsCommute : Prop :=
  ∀ (i j : Instr) (s a b : State), onEncSide i = true → onDecSide j = true →
    exec i s = .next a → exec j s = .next b → ∃ t : State, exec j a = .next t ∧ exec i b = .next t

/-- The frame of every instruction (R20, R58): ENC's side leaves DEC's registers and stream, DEC's side leaves ENC's, and both leave
the strap, `POSW` and the host's pending actions. -/
def Obligations.EachUnitLeavesTheOtherAlone : Prop :=
  ∀ (i : Instr) (s t : State), exec i s = .next t →
    (onEncSide i = true → t.dec = s.dec ∧ t.decOut = s.decOut) ∧
    (onDecSide i = true → t.enc = s.enc ∧ t.encOut = s.encOut) ∧
    t.hostLe = s.hostLe ∧ t.posw = s.posw ∧ t.input = s.input

/-- R61: a step never rewrites a stream; it only appends to it. -/
def Obligations.StreamsOnlyGrow : Prop :=
  ∀ s t : State, step s = .next t →
    ∃ (es : List EncOut) (ds : List DecOut), t.encOut = s.encOut ++ es ∧ t.decOut = s.decOut ++ ds ∧ (es = [] ∨ ds = [])

/-- R108 and R131, which the spec derives: how many tokens each instruction appends, from states with the register invariant. -/
def Obligations.OutputTokensPerStep : Prop :=
  ∀ (i : Instr) (s t : State), s.inv = true → exec i s = .next t →
    (∀ b, i = .encByte b → s.encOut.length + 1 ≤ t.encOut.length ∧ t.encOut.length ≤ s.encOut.length + 2) ∧
    (∀ p, i = .encEnd p → s.encOut.length + 1 ≤ t.encOut.length ∧ t.encOut.length ≤ s.encOut.length + 2) ∧
    (∀ p, i = .encEndp p → s.encOut.length + 1 ≤ t.encOut.length ∧ t.encOut.length ≤ s.encOut.length + 8) ∧
    (∀ c, i = .decChar c → t.decOut.length ≤ s.decOut.length + 1) ∧
    (∀ p, i = .decEnd p → t.decOut.length = s.decOut.length + 1) ∧
    (∀ id, i = .umxId id → s.enc = EncRegs.reset → t.encOut.length = s.encOut.length + 27)

/-- R35: the end tokens leave their unit's registers at the reset values, and what a run of instructions appends is a function of those
instructions, the registers and the parameters, not of earlier streams. -/
def Obligations.MessagesAreIndependent : Prop :=
  (∀ (s : State) (p : Byte), s.enc.legal = true →
    ∃ t u : State, exec (.encEnd p) s = .next t ∧ t.enc = EncRegs.reset ∧ exec (.encEndp p) s = .next u ∧ u.enc = EncRegs.reset) ∧
  (∀ (s : State) (p : Byte), s.dec.legal s.posw = true → ∃ t : State, exec (.decEnd p) s = .next t ∧ t.dec = DecRegs.reset) ∧
  (∀ (is : List Instr) (s s' t : State),
    s.enc = s'.enc → s.dec = s'.dec → s.hostLe = s'.hostLe → s.posw = s'.posw → execAll is s = .next t →
    ∃ (t' : State) (es : List EncOut) (ds : List DecOut), execAll is s' = .next t' ∧ t'.enc = t.enc ∧ t'.dec = t.dec ∧
      t.encOut = s.encOut ++ es ∧ t'.encOut = s'.encOut ++ es ∧ t.decOut = s.decOut ++ ds ∧ t'.decOut = s'.decOut ++ ds)

/-- R29: no instruction but UMX.ID reads the strap: run with the other level, each gives the same next state but for the strap itself. -/
def Obligations.OnlyUmxIdReadsTheStrap : Prop :=
  ∀ (i : Instr) (s t : State) (b : Bool), (∀ id, i ≠ .umxId id) →
    exec i s = .next t → exec i { s with hostLe := b } = .next { t with hostLe := b }

/-- R200: the positions and `POSW` reach nothing but the positions an ERR reports: with other positions and another width an
instruction gives the same next state and tokens but for them. -/
def Obligations.PositionsReachOnlyTheReport : Prop :=
  ∀ (i : Instr) (s s' t : State),
    s'.enc = s.enc → s'.hostLe = s.hostLe → s'.input = s.input → s'.encOut = s.encOut →
    s'.dec.forgetPos = s.dec.forgetPos → s'.decOut.map forgetTokenPos = s.decOut.map forgetTokenPos →
    s'.dec.legal s'.posw = true → exec i s = .next t →
    ∃ t' : State, exec i s' = .next t' ∧ t'.enc = t.enc ∧ t'.hostLe = t.hostLe ∧ t'.input = t.input ∧ t'.encOut = t.encOut ∧
      t'.dec.forgetPos = t.dec.forgetPos ∧ t'.decOut.map forgetTokenPos = t.decOut.map forgetTokenPos

/-- R204, with UMX.ID's burst taken as closing ENC's message (log 18): a complete run from closed messages, if the host never
presents the reserved token, takes every action and ends with every register at its reset value. -/
def Obligations.CompleteRunEndsInTheResetState : Prop :=
  ∀ s : State, s.enc = EncRegs.reset → s.dec = DecRegs.reset → neverReserved s.input = true → completeRun s.input = true →
    ∃ t : State, runInput s = .next t ∧ t.enc = EncRegs.reset ∧ t.dec = DecRegs.reset ∧ t.input = []

/-- R86 with R133 and R180, from the assembler's lines to the reader of the streams: the macros' results are the source's functions.
A decoded message is shorter than `2^POSW` characters, so that its position is exact (R132). -/
def Obligations.MacroResultsAreTheSourceFunctions : Prop :=
  (∀ (s : State) (bs : List Byte) (padded : Bool), s.enc = EncRegs.reset →
    ∃ es : List EncOut,
      runInput { s with input := (macroEncode bs padded).map assembleLine } = .next { s with input := [], encOut := s.encOut ++ es } ∧
      encResult es = some (Codec.encode bs padded)) ∧
  (∀ (s : State) (cs : List Code), s.dec = DecRegs.reset → cs.length < 2 ^ s.posw →
    ∃ ds : List DecOut,
      runInput { s with input := (macroDecode cs).map assembleLine } = .next { s with input := [], decOut := s.decOut ++ ds } ∧
      decResult ds = some (Codec.decode cs)) ∧
  (∀ (s : State) (id : Ident), s.enc = EncRegs.reset →
    ∃ es : List EncOut,
      runInput { s with input := (macroId2b32 id).map assembleLine } = .next { s with input := [], encOut := s.encOut ++ es } ∧
      encResult es = some (Codec.identifierToBase32 id s.hostLe))
end

