-- ==== Sys2Proof/Laws/Codec.lean ====
section
/-! SUPPORT. Small facts of the message-level functions: bitstream lengths and the tables' inverses. -/

namespace Sys2Proof.Codec

open Sys2Proof.Machine

@[simp] theorem bitsMsbFirst_length {n : Nat} (v : BitVec n) : (bitsMsbFirst v).length = n := by simp [bitsMsbFirst]

/-- `bits(B)` has `8 N` bits (R51). -/
@[simp] theorem bytesToBits_length (bs : List Byte) : (bytesToBits bs).length = 8 * bs.length := by
  induction bs with
  | nil => rfl
  | cons b bs ih =>
    have h : bytesToBits (b :: bs) = bitsMsbFirst b ++ bytesToBits bs := rfl
    rw [h, List.length_append, ih, bitsMsbFirst_length, List.length_cons]
    omega

/-- The bitstream of `S` groups has `5 S` bits (R51). -/
@[simp] theorem groupsToBits_length (gs : List Group) : (groupsToBits gs).length = 5 * gs.length := by
  induction gs with
  | nil => rfl
  | cons g gs ih =>
    have h : groupsToBits (g :: gs) = bitsMsbFirst g ++ groupsToBits gs := rfl
    rw [h, List.length_append, ih, bitsMsbFirst_length, List.length_cons]
    omega

/-- There are `S = ceil(8 N / 5)` groups (R100). -/
@[simp] theorem encodeGroups_length (bs : List Byte) : (encodeGroups bs).length = symbolCount bs.length := by
  simp [encodeGroups]

@[simp] theorem strip_nil : strip [] = [] := rfl

/-- A last character that is not `'='` stops the strip (R120 step 1). -/
theorem strip_append_singleton_of_ne (cs : List Code) {c : Code} (h : c ≠ padCode) : strip (cs ++ [c]) = cs ++ [c] := by
  simp [strip, h]

/-- A last `'='` is stripped (R120 step 1). -/
theorem strip_append_pad (cs : List Code) : strip (cs ++ [padCode]) = strip cs := by
  simp [strip]

end Sys2Proof.Codec
end

