-- ==== Sys2Proof/Laws/State.lean ====
section
/-! SUPPORT. What each update of State does to each field, so that no later proof unfolds a record update. -/

namespace Sys2Proof.Machine

@[simp] theorem State.setEnc_enc (r : EncRegs) (s : State) : (s.setEnc r).enc = r := rfl
@[simp] theorem State.setEnc_dec (r : EncRegs) (s : State) : (s.setEnc r).dec = s.dec := rfl
@[simp] theorem State.setEnc_hostLe (r : EncRegs) (s : State) : (s.setEnc r).hostLe = s.hostLe := rfl
@[simp] theorem State.setEnc_posw (r : EncRegs) (s : State) : (s.setEnc r).posw = s.posw := rfl
@[simp] theorem State.setEnc_input (r : EncRegs) (s : State) : (s.setEnc r).input = s.input := rfl
@[simp] theorem State.setEnc_encOut (r : EncRegs) (s : State) : (s.setEnc r).encOut = s.encOut := rfl
@[simp] theorem State.setEnc_decOut (r : EncRegs) (s : State) : (s.setEnc r).decOut = s.decOut := rfl

@[simp] theorem State.setDec_enc (r : DecRegs) (s : State) : (s.setDec r).enc = s.enc := rfl
@[simp] theorem State.setDec_dec (r : DecRegs) (s : State) : (s.setDec r).dec = r := rfl
@[simp] theorem State.setDec_hostLe (r : DecRegs) (s : State) : (s.setDec r).hostLe = s.hostLe := rfl
@[simp] theorem State.setDec_posw (r : DecRegs) (s : State) : (s.setDec r).posw = s.posw := rfl
@[simp] theorem State.setDec_input (r : DecRegs) (s : State) : (s.setDec r).input = s.input := rfl
@[simp] theorem State.setDec_encOut (r : DecRegs) (s : State) : (s.setDec r).encOut = s.encOut := rfl
@[simp] theorem State.setDec_decOut (r : DecRegs) (s : State) : (s.setDec r).decOut = s.decOut := rfl

@[simp] theorem State.emitEnc_enc (ts : List EncOut) (s : State) : (s.emitEnc ts).enc = s.enc := rfl
@[simp] theorem State.emitEnc_dec (ts : List EncOut) (s : State) : (s.emitEnc ts).dec = s.dec := rfl
@[simp] theorem State.emitEnc_hostLe (ts : List EncOut) (s : State) : (s.emitEnc ts).hostLe = s.hostLe := rfl
@[simp] theorem State.emitEnc_posw (ts : List EncOut) (s : State) : (s.emitEnc ts).posw = s.posw := rfl
@[simp] theorem State.emitEnc_input (ts : List EncOut) (s : State) : (s.emitEnc ts).input = s.input := rfl
@[simp] theorem State.emitEnc_encOut (ts : List EncOut) (s : State) : (s.emitEnc ts).encOut = s.encOut ++ ts := rfl
@[simp] theorem State.emitEnc_decOut (ts : List EncOut) (s : State) : (s.emitEnc ts).decOut = s.decOut := rfl

@[simp] theorem State.emitDec_enc (ts : List DecOut) (s : State) : (s.emitDec ts).enc = s.enc := rfl
@[simp] theorem State.emitDec_dec (ts : List DecOut) (s : State) : (s.emitDec ts).dec = s.dec := rfl
@[simp] theorem State.emitDec_hostLe (ts : List DecOut) (s : State) : (s.emitDec ts).hostLe = s.hostLe := rfl
@[simp] theorem State.emitDec_posw (ts : List DecOut) (s : State) : (s.emitDec ts).posw = s.posw := rfl
@[simp] theorem State.emitDec_input (ts : List DecOut) (s : State) : (s.emitDec ts).input = s.input := rfl
@[simp] theorem State.emitDec_encOut (ts : List DecOut) (s : State) : (s.emitDec ts).encOut = s.encOut := rfl
@[simp] theorem State.emitDec_decOut (ts : List DecOut) (s : State) : (s.emitDec ts).decOut = s.decOut ++ ts := rfl

@[simp] theorem State.setStrap_enc (b : Bool) (s : State) : (s.setStrap b).enc = s.enc := rfl
@[simp] theorem State.setStrap_dec (b : Bool) (s : State) : (s.setStrap b).dec = s.dec := rfl
@[simp] theorem State.setStrap_hostLe (b : Bool) (s : State) : (s.setStrap b).hostLe = b := rfl
@[simp] theorem State.setStrap_posw (b : Bool) (s : State) : (s.setStrap b).posw = s.posw := rfl
@[simp] theorem State.setStrap_input (b : Bool) (s : State) : (s.setStrap b).input = s.input := rfl
@[simp] theorem State.setStrap_encOut (b : Bool) (s : State) : (s.setStrap b).encOut = s.encOut := rfl
@[simp] theorem State.setStrap_decOut (b : Bool) (s : State) : (s.setStrap b).decOut = s.decOut := rfl

@[simp] theorem State.dropAction_enc (s : State) : s.dropAction.enc = s.enc := rfl
@[simp] theorem State.dropAction_dec (s : State) : s.dropAction.dec = s.dec := rfl
@[simp] theorem State.dropAction_hostLe (s : State) : s.dropAction.hostLe = s.hostLe := rfl
@[simp] theorem State.dropAction_posw (s : State) : s.dropAction.posw = s.posw := rfl
@[simp] theorem State.dropAction_input (s : State) : s.dropAction.input = s.input.tail := rfl
@[simp] theorem State.dropAction_encOut (s : State) : s.dropAction.encOut = s.encOut := rfl
@[simp] theorem State.dropAction_decOut (s : State) : s.dropAction.decOut = s.decOut := rfl

@[simp] theorem State.present_enc (a : HostAction) (s : State) : (s.present a).enc = s.enc := rfl
@[simp] theorem State.present_dec (a : HostAction) (s : State) : (s.present a).dec = s.dec := rfl
@[simp] theorem State.present_hostLe (a : HostAction) (s : State) : (s.present a).hostLe = s.hostLe := rfl
@[simp] theorem State.present_posw (a : HostAction) (s : State) : (s.present a).posw = s.posw := rfl
@[simp] theorem State.present_input (a : HostAction) (s : State) : (s.present a).input = a :: s.input := rfl
@[simp] theorem State.present_encOut (a : HostAction) (s : State) : (s.present a).encOut = s.encOut := rfl
@[simp] theorem State.present_decOut (a : HostAction) (s : State) : (s.present a).decOut = s.decOut := rfl

@[simp] theorem State.takeReset_enc (s : State) : s.takeReset.enc = EncRegs.reset := rfl
@[simp] theorem State.takeReset_dec (s : State) : s.takeReset.dec = DecRegs.reset := rfl
@[simp] theorem State.takeReset_hostLe (s : State) : s.takeReset.hostLe = s.hostLe := rfl
@[simp] theorem State.takeReset_posw (s : State) : s.takeReset.posw = s.posw := rfl
@[simp] theorem State.takeReset_input (s : State) : s.takeReset.input = s.input := rfl
@[simp] theorem State.takeReset_encOut (s : State) : s.takeReset.encOut = s.encOut := rfl
@[simp] theorem State.takeReset_decOut (s : State) : s.takeReset.decOut = s.decOut := rfl

@[simp] theorem State.closeDec_enc (s : State) : s.closeDec.enc = s.enc := rfl
@[simp] theorem State.closeDec_dec (s : State) : s.closeDec.dec = DecRegs.reset := rfl
@[simp] theorem State.closeDec_hostLe (s : State) : s.closeDec.hostLe = s.hostLe := rfl
@[simp] theorem State.closeDec_posw (s : State) : s.closeDec.posw = s.posw := rfl
@[simp] theorem State.closeDec_input (s : State) : s.closeDec.input = s.input := rfl
@[simp] theorem State.closeDec_encOut (s : State) : s.closeDec.encOut = s.encOut := rfl
@[simp] theorem State.closeDec_decOut (s : State) : s.closeDec.decOut = s.decOut ++ [.eom s.dec.dErr] := rfl

@[simp] theorem State.closeEnc_enc (ts : List EncOut) (s : State) : (s.closeEnc ts).enc = EncRegs.reset := rfl
@[simp] theorem State.closeEnc_dec (ts : List EncOut) (s : State) : (s.closeEnc ts).dec = s.dec := rfl
@[simp] theorem State.closeEnc_hostLe (ts : List EncOut) (s : State) : (s.closeEnc ts).hostLe = s.hostLe := rfl
@[simp] theorem State.closeEnc_posw (ts : List EncOut) (s : State) : (s.closeEnc ts).posw = s.posw := rfl
@[simp] theorem State.closeEnc_input (ts : List EncOut) (s : State) : (s.closeEnc ts).input = s.input := rfl
@[simp] theorem State.closeEnc_encOut (ts : List EncOut) (s : State) : (s.closeEnc ts).encOut = s.encOut ++ (ts ++ [.eom]) := rfl
@[simp] theorem State.closeEnc_decOut (ts : List EncOut) (s : State) : (s.closeEnc ts).decOut = s.decOut := rfl

@[simp] theorem State.raiseInvalidSymbol_enc (c : Code) (p : Nat) (s : State) :
    (s.raiseInvalidSymbol c p).enc = s.enc := rfl
@[simp] theorem State.raiseInvalidSymbol_dec (c : Code) (p : Nat) (s : State) :
    (s.raiseInvalidSymbol c p).dec = s.dec.setErr := rfl
@[simp] theorem State.raiseInvalidSymbol_hostLe (c : Code) (p : Nat) (s : State) :
    (s.raiseInvalidSymbol c p).hostLe = s.hostLe := rfl
@[simp] theorem State.raiseInvalidSymbol_posw (c : Code) (p : Nat) (s : State) :
    (s.raiseInvalidSymbol c p).posw = s.posw := rfl
@[simp] theorem State.raiseInvalidSymbol_input (c : Code) (p : Nat) (s : State) :
    (s.raiseInvalidSymbol c p).input = s.input := rfl
@[simp] theorem State.raiseInvalidSymbol_encOut (c : Code) (p : Nat) (s : State) :
    (s.raiseInvalidSymbol c p).encOut = s.encOut := rfl
@[simp] theorem State.raiseInvalidSymbol_decOut (c : Code) (p : Nat) (s : State) :
    (s.raiseInvalidSymbol c p).decOut = s.decOut ++ [.err c p] := rfl

end Sys2Proof.Machine
end

