-- ==== Sys2Proof/Laws/Ops.lean ====
section
/-! SUPPORT. The guards on register values: all a guarded step can answer. -/

namespace Sys2Proof.Machine

/-- All an ENC step can answer with a next state. -/
theorem State.onEnc_next_iff (s t : State) (f : State → State) :
    s.onEnc f = .next t ↔ s.enc.legal = true ∧ t = f s := by
  unfold State.onEnc
  cases h : s.enc.legal
  · simp
  · simp [eq_comm]

/-- All a DEC step can answer with a next state. -/
theorem State.onDec_next_iff (s t : State) (f : State → State) :
    s.onDec f = .next t ↔ s.dec.legal s.posw = true ∧ t = f s := by
  unfold State.onDec
  cases h : s.dec.legal s.posw
  · simp
  · simp [eq_comm]

/-- On legal registers an ENC step completes. -/
theorem State.onEnc_of_legal {s : State} (h : s.enc.legal = true) (f : State → State) : s.onEnc f = .next (f s) :=
  (s.onEnc_next_iff _ f).2 ⟨h, rfl⟩

/-- On legal registers a DEC step completes. -/
theorem State.onDec_of_legal {s : State} (h : s.dec.legal s.posw = true) (f : State → State) : s.onDec f = .next (f s) :=
  (s.onDec_next_iff _ f).2 ⟨h, rfl⟩

/-- What a legal ENC residue is, as a bound (R22). -/
theorem EncRegs.legal_iff (r : EncRegs) : r.legal = true ↔ r.eAcc.toNat < 2 ^ r.eN.val := by
  simp [EncRegs.legal]

/-- What legal DEC registers are, as bounds (R24, R25). -/
theorem DecRegs.legal_iff (posw : Nat) (r : DecRegs) :
    r.legal posw = true ↔ r.dAcc.toNat < 2 ^ r.dN.val ∧ r.dPos < 2 ^ posw ∧ r.dPadpos < 2 ^ posw := by
  simp [DecRegs.legal, and_assoc]

@[simp] theorem EncRegs.reset_legal : EncRegs.reset.legal = true := by decide

@[simp] theorem DecRegs.reset_legal (posw : Nat) : DecRegs.reset.legal posw = true := by
  simp [DecRegs.legal_iff, DecRegs.reset]

/-- The three flag readings of the mode (R26). -/
theorem DecRegs.mode_eq_error_iff (r : DecRegs) : r.mode = .error ↔ r.dErr = true := by
  unfold DecRegs.mode
  cases r.dErr <;> cases r.dPad <;> simp

theorem DecRegs.mode_eq_padRun_iff (r : DecRegs) : r.mode = .padRun ↔ r.dErr = false ∧ r.dPad = true := by
  unfold DecRegs.mode
  cases r.dErr <;> cases r.dPad <;> simp

theorem DecRegs.mode_eq_normal_iff (r : DecRegs) : r.mode = .normal ↔ r.dErr = false ∧ r.dPad = false := by
  unfold DecRegs.mode
  cases r.dErr <;> cases r.dPad <;> simp

/-- A position stays within `POSW` bits. -/
theorem nextPos_lt (posw pos : Nat) : nextPos posw pos < 2 ^ posw := Nat.mod_lt _ (Nat.two_pow_pos posw)

/-- The flag-only updates keep the registers legal. -/
theorem DecRegs.setErr_legal (posw : Nat) (r : DecRegs) : r.setErr.legal posw = r.legal posw := rfl

theorem DecRegs.afterPad_legal {posw : Nat} {r : DecRegs} (h : r.legal posw = true) : (r.afterPad posw).legal posw = true := by
  rw [DecRegs.legal_iff] at *
  refine ⟨h.1, nextPos_lt _ _, ?_⟩
  show (if r.dPad then r.dPadpos else r.dPos) < 2 ^ posw
  split
  · exact h.2.2
  · exact h.2.1

/-- The value of a window's low bits, when they fit. -/
theorem lowBits_toNat {n m r : Nat} (w : BitVec m) (h : r ≤ n) : (lowBits n w r).toNat = w.toNat % 2 ^ r := by
  have : w.toNat % 2 ^ r < 2 ^ n := lt_of_lt_of_le (Nat.mod_lt _ (Nat.two_pow_pos r)) (Nat.pow_le_pow_right (by decide) h)
  simp [lowBits, BitVec.toNat_ofNat, Nat.mod_eq_of_lt this]

end Sys2Proof.Machine
end

