-- ==== Sys2Proof/Laws/Dec.lean ====
section
/-! SUPPORT. What the decoder's steps do: DEC.CHAR by its arms, and what they keep. -/

namespace Sys2Proof.Machine

/-- The number the window stands for: `d_acc * 32 + v` (R124). -/
theorem DecRegs.window_toNat (r : DecRegs) (v : Group) : (r.window v).toNat = r.dAcc.toNat * 32 + v.toNat := by
  have h := v.isLt
  show (r.dAcc ++ v).toNat = _
  rw [BitVec.toNat_append, ← Nat.shiftLeft_add_eq_or_of_lt h, Nat.shiftLeft_eq]

theorem DecRegs.nAfterSym_val (r : DecRegs) : r.nAfterSym.val = if r.dN.val ≥ 3 then r.dN.val - 3 else r.dN.val + 5 := by
  unfold DecRegs.nAfterSym
  by_cases h : r.dN.val ≥ 3
  · simp [h]
  · simp [h]

/-- The registers stay legal after a symbol (R25). -/
theorem DecRegs.afterSym_legal {posw : Nat} {r : DecRegs} (h : r.legal posw = true) (v : Group) :
    (r.afterSym posw v).legal posw = true := by
  rw [DecRegs.legal_iff] at *
  refine ⟨?_, nextPos_lt _ _, h.2.2⟩
  show (lowBits 7 (r.window v) r.nAfterSym.val).toNat < 2 ^ r.nAfterSym.val
  rw [lowBits_toNat _ (by omega)]
  exact Nat.mod_lt _ (Nat.two_pow_pos _)

/-- At most one byte for a symbol (R124, R131). -/
theorem DecRegs.symBytes_length (r : DecRegs) (v : Group) : (r.symBytes v).length = if r.dN.val ≥ 3 then 1 else 0 := by
  unfold DecRegs.symBytes
  by_cases h : r.dN.val ≥ 3
  · simp [h]
  · simp [h]

@[simp] theorem State.decSymbol_enc (v : Group) (s : State) : (s.decSymbol v).enc = s.enc := rfl
@[simp] theorem State.decSymbol_dec (v : Group) (s : State) : (s.decSymbol v).dec = s.dec.afterSym s.posw v := rfl
@[simp] theorem State.decSymbol_hostLe (v : Group) (s : State) : (s.decSymbol v).hostLe = s.hostLe := rfl
@[simp] theorem State.decSymbol_posw (v : Group) (s : State) : (s.decSymbol v).posw = s.posw := rfl
@[simp] theorem State.decSymbol_input (v : Group) (s : State) : (s.decSymbol v).input = s.input := rfl
@[simp] theorem State.decSymbol_encOut (v : Group) (s : State) : (s.decSymbol v).encOut = s.encOut := rfl
@[simp] theorem State.decSymbol_decOut (v : Group) (s : State) : (s.decSymbol v).decOut = s.decOut ++ s.dec.symBytes v := rfl

@[simp] theorem State.decPad_enc (s : State) : s.decPad.enc = s.enc := rfl
@[simp] theorem State.decPad_dec (s : State) : s.decPad.dec = s.dec.afterPad s.posw := rfl
@[simp] theorem State.decPad_hostLe (s : State) : s.decPad.hostLe = s.hostLe := rfl
@[simp] theorem State.decPad_posw (s : State) : s.decPad.posw = s.posw := rfl
@[simp] theorem State.decPad_input (s : State) : s.decPad.input = s.input := rfl
@[simp] theorem State.decPad_encOut (s : State) : s.decPad.encOut = s.encOut := rfl
@[simp] theorem State.decPad_decOut (s : State) : s.decPad.decOut = s.decOut := rfl

/-- The six arms of DEC.CHAR (R123 to R129), each with its condition. -/
theorem State.decChar_cases (c : Code) (s : State) :
    (s.dec.dErr = true ∧ s.decChar c = s) ∨
    (∃ v, s.dec.dErr = false ∧ s.dec.dPad = false ∧ rev c = .sym v ∧ s.decChar c = s.decSymbol v) ∨
    (s.dec.dErr = false ∧ rev c = .pad ∧ s.decChar c = s.decPad) ∨
    (s.dec.dErr = false ∧ s.dec.dPad = false ∧ rev c = .inv ∧ s.decChar c = s.raiseInvalidSymbol c s.dec.dPos) ∨
    (s.dec.dErr = false ∧ s.dec.dPad = true ∧ rev c ≠ .pad ∧ s.decChar c = s.raiseInvalidSymbol padCode s.dec.dPadpos) := by
  unfold State.decChar DecRegs.mode
  cases s.dec.dErr <;> cases s.dec.dPad <;> cases rev c <;> simp

/-- DEC.CHAR leaves everything but DEC's registers and stream alone. -/
theorem State.decChar_frame (c : Code) (s : State) :
    (s.decChar c).enc = s.enc ∧ (s.decChar c).encOut = s.encOut ∧ (s.decChar c).hostLe = s.hostLe ∧
      (s.decChar c).posw = s.posw ∧ (s.decChar c).input = s.input := by
  obtain ⟨-, h⟩ | ⟨v, -, -, -, h⟩ | ⟨-, -, h⟩ | ⟨-, -, -, h⟩ | ⟨-, -, -, h⟩ := s.decChar_cases c <;>
    rw [h] <;> exact ⟨rfl, rfl, rfl, rfl, rfl⟩

/-- DEC.CHAR keeps DEC's registers legal. -/
theorem State.decChar_legal {s : State} (hl : s.dec.legal s.posw = true) (c : Code) : (s.decChar c).dec.legal s.posw = true := by
  obtain ⟨-, h⟩ | ⟨v, -, -, -, h⟩ | ⟨-, -, h⟩ | ⟨-, -, -, h⟩ | ⟨-, -, -, h⟩ := s.decChar_cases c <;> rw [h]
  · exact hl
  · exact DecRegs.afterSym_legal hl v
  · exact DecRegs.afterPad_legal hl
  · exact hl
  · exact hl

end Sys2Proof.Machine
end

