-- ==== Sys2Proof/Laws/Enc.lean ====
section
/-! SUPPORT. What the encoder's steps do to each field, and what they keep. -/

namespace Sys2Proof.Machine

/-- The number the window stands for: `e_acc * 256 + b` (R102). -/
theorem EncRegs.window_toNat (r : EncRegs) (b : Byte) : (r.window b).toNat = r.eAcc.toNat * 256 + b.toNat := by
  have h := b.isLt
  show (r.eAcc ++ b).toNat = _
  rw [BitVec.toNat_append, ← Nat.shiftLeft_add_eq_or_of_lt h, Nat.shiftLeft_eq]

/-- The residue fits its count after a byte (R22). -/
theorem EncRegs.afterByte_legal (r : EncRegs) (b : Byte) : (r.afterByte b).legal = true := by
  rw [EncRegs.legal_iff]
  unfold EncRegs.afterByte
  split
  · rw [lowBits_toNat _ (by omega)]
    exact Nat.mod_lt _ (Nat.two_pow_pos _)
  · rw [lowBits_toNat _ (by omega)]
    exact Nat.mod_lt _ (Nat.two_pow_pos _)

/-- The counters after a byte (R102). -/
theorem EncRegs.afterByte_eN (r : EncRegs) (b : Byte) :
    (r.afterByte b).eN.val = if r.eN.val ≥ 2 then r.eN.val - 2 else r.eN.val + 3 := by
  unfold EncRegs.afterByte
  by_cases h : r.eN.val ≥ 2
  · simp [h]
  · simp [h]

theorem EncRegs.afterByte_eSym8 (r : EncRegs) (b : Byte) :
    (r.afterByte b).eSym8 = if r.eN.val ≥ 2 then r.eSym8 + 2 else r.eSym8 + 1 := by
  unfold EncRegs.afterByte
  by_cases h : r.eN.val ≥ 2
  · simp [h]
  · simp [h]

/-- One or two groups for a byte (R102, R108). -/
theorem EncRegs.byteGroups_length (r : EncRegs) (b : Byte) :
    (r.byteGroups b).length = if r.eN.val ≥ 2 then 2 else 1 := by
  unfold EncRegs.byteGroups
  by_cases h : r.eN.val ≥ 2
  · simp [h]
  · simp [h]

/-- At most one group is flushed (R104, R108). -/
theorem EncRegs.flushGroups_length (r : EncRegs) : r.flushGroups.length = if r.eN.val > 0 then 1 else 0 := by
  unfold EncRegs.flushGroups
  split <;> rfl

@[simp] theorem EncRegs.flushGroups_reset : EncRegs.reset.flushGroups = [] := by decide

theorem charsOf_length (gs : List Group) : (charsOf gs).length = gs.length := by simp [charsOf]

@[simp] theorem State.encByte_enc (b : Byte) (s : State) : (s.encByte b).enc = s.enc.afterByte b := rfl
@[simp] theorem State.encByte_dec (b : Byte) (s : State) : (s.encByte b).dec = s.dec := rfl
@[simp] theorem State.encByte_hostLe (b : Byte) (s : State) : (s.encByte b).hostLe = s.hostLe := rfl
@[simp] theorem State.encByte_posw (b : Byte) (s : State) : (s.encByte b).posw = s.posw := rfl
@[simp] theorem State.encByte_input (b : Byte) (s : State) : (s.encByte b).input = s.input := rfl
@[simp] theorem State.encByte_decOut (b : Byte) (s : State) : (s.encByte b).decOut = s.decOut := rfl
@[simp] theorem State.encByte_encOut (b : Byte) (s : State) :
    (s.encByte b).encOut = s.encOut ++ charsOf (s.enc.byteGroups b) := rfl

@[simp] theorem State.encBytes_nil (s : State) : s.encBytes [] = s := rfl
@[simp] theorem State.encBytes_cons (b : Byte) (bs : List Byte) (s : State) :
    s.encBytes (b :: bs) = (s.encByte b).encBytes bs := rfl

/-- A run of bytes is its parts one after the other. -/
theorem State.encBytes_append (bs cs : List Byte) (s : State) : s.encBytes (bs ++ cs) = (s.encBytes bs).encBytes cs := by
  simp [State.encBytes, List.foldl_append]

/-- Bytes keep the residue legal. -/
theorem State.encBytes_legal {s : State} (h : s.enc.legal = true) (bs : List Byte) : (s.encBytes bs).enc.legal = true := by
  induction bs generalizing s with
  | nil => exact h
  | cons b bs ih => exact ih (s.enc.afterByte_legal b)

/-- Bytes leave everything but ENC's registers and stream alone. -/
theorem State.encBytes_frame (bs : List Byte) (s : State) :
    (s.encBytes bs).dec = s.dec ∧ (s.encBytes bs).decOut = s.decOut ∧ (s.encBytes bs).hostLe = s.hostLe ∧
      (s.encBytes bs).posw = s.posw ∧ (s.encBytes bs).input = s.input := by
  induction bs generalizing s with
  | nil => exact ⟨rfl, rfl, rfl, rfl, rfl⟩
  | cons b bs ih => exact ih (s.encByte b)

/-- Bytes only append to `ENC_OUT`. -/
theorem State.encBytes_encOut (bs : List Byte) (s : State) : ∃ es, (s.encBytes bs).encOut = s.encOut ++ es := by
  induction bs generalizing s with
  | nil => exact ⟨[], by simp⟩
  | cons b bs ih =>
    obtain ⟨es, h⟩ := ih (s.encByte b)
    exact ⟨charsOf (s.enc.byteGroups b) ++ es, by simp [h, List.append_assoc]⟩

@[simp] theorem State.encEnd_enc (s : State) : s.encEnd.enc = EncRegs.reset := rfl
@[simp] theorem State.encEnd_dec (s : State) : s.encEnd.dec = s.dec := rfl
@[simp] theorem State.encEnd_hostLe (s : State) : s.encEnd.hostLe = s.hostLe := rfl
@[simp] theorem State.encEnd_posw (s : State) : s.encEnd.posw = s.posw := rfl
@[simp] theorem State.encEnd_input (s : State) : s.encEnd.input = s.input := rfl
@[simp] theorem State.encEnd_encOut (s : State) : s.encEnd.encOut = s.encOut ++ (charsOf s.enc.flushGroups ++ [.eom]) := rfl
@[simp] theorem State.encEnd_decOut (s : State) : s.encEnd.decOut = s.decOut := rfl

@[simp] theorem State.encEndp_enc (s : State) : s.encEndp.enc = EncRegs.reset := rfl
@[simp] theorem State.encEndp_dec (s : State) : s.encEndp.dec = s.dec := rfl
@[simp] theorem State.encEndp_hostLe (s : State) : s.encEndp.hostLe = s.hostLe := rfl
@[simp] theorem State.encEndp_posw (s : State) : s.encEndp.posw = s.posw := rfl
@[simp] theorem State.encEndp_input (s : State) : s.encEndp.input = s.input := rfl
@[simp] theorem State.encEndp_encOut (s : State) : s.encEndp.encOut = s.encOut ++ (charsOf s.enc.flushGroups ++ s.enc.padding ++ [.eom]) := rfl
@[simp] theorem State.encEndp_decOut (s : State) : s.encEndp.decOut = s.decOut := rfl

/-- UMX.ID leaves ENC's registers at their reset values and everything else but `ENC_OUT` alone (R143). -/
theorem State.umxId_frame (id : Ident) (s : State) :
    (s.umxId id).enc = EncRegs.reset ∧ (s.umxId id).dec = s.dec ∧ (s.umxId id).decOut = s.decOut ∧
      (s.umxId id).hostLe = s.hostLe ∧ (s.umxId id).posw = s.posw ∧ (s.umxId id).input = s.input :=
  ⟨rfl, s.encBytes_frame (reorder id s.hostLe).toList⟩

/-- UMX.ID only appends to `ENC_OUT`. -/
theorem State.umxId_encOut (id : Ident) (s : State) : ∃ es, (s.umxId id).encOut = s.encOut ++ es := by
  obtain ⟨es, h⟩ := s.encBytes_encOut (reorder id s.hostLe).toList
  exact ⟨es ++ _, by rw [State.umxId, State.encEnd_encOut, h, List.append_assoc]⟩

end Sys2Proof.Machine
end

