-- ==== Sys2Proof/Laws/PerInstr.lean ====
section
/-! SUPPORT. The per-instruction family EncodedWord: an instruction's encoding stands on its own port, and the table row of its mnemonic covers it. -/

namespace Sys2Proof.Laws.EncodedWord

open Sys2Proof

/-- The encoding of `i` is a word of `i`'s port that the row of `i`'s mnemonic covers (R79). -/
def Statement (i : Instr) : Prop :=
  (encode i).port = i.port ∧ ∃ r ∈ opcodeTable, r.mnemonic = i.mnemonic ∧ r.covers (encode i) = true

theorem encByte (b : Byte) : Statement (.encByte b) :=
  ⟨rfl, ⟨"ENC.BYTE", .encIn, 0x000, 0x300⟩, by decide, rfl, by revert b; decide⟩

theorem encEnd (payload : Byte) : Statement (.encEnd payload) :=
  ⟨rfl, ⟨"ENC.END", .encIn, 0x100, 0x300⟩, by decide, rfl, by revert payload; decide⟩

theorem encEndp (payload : Byte) : Statement (.encEndp payload) :=
  ⟨rfl, ⟨"ENC.ENDP", .encIn, 0x200, 0x300⟩, by decide, rfl, by revert payload; decide⟩

theorem encReserved (payload : Byte) : Statement (.encReserved payload) :=
  ⟨rfl, ⟨"ENC.RESERVED", .encIn, 0x300, 0x300⟩, by decide, rfl, by revert payload; decide⟩

theorem decChar (c : Code) : Statement (.decChar c) :=
  ⟨rfl, ⟨"DEC.CHAR", .decIn, 0x000, 0x100⟩, by decide, rfl, by revert c; decide⟩

theorem decEnd (payload : Byte) : Statement (.decEnd payload) :=
  ⟨rfl, ⟨"DEC.END", .decIn, 0x100, 0x100⟩, by decide, rfl, by revert payload; decide⟩

theorem umxId (id : Ident) : Statement (.umxId id) :=
  ⟨rfl, ⟨"UMX.ID", .umxIn, 0, 0⟩, by decide, rfl, by simp [OpcodeRow.covers, encode, PortWord.port, PortWord.value]⟩

end Sys2Proof.Laws.EncodedWord
end

