-- ==== Sys2Proof/Laws/Step.lean ====
section
/-! SUPPORT. All an instruction or a step can do when it answers a next state. -/

namespace Sys2Proof.Machine

/-- All an instruction can do when it answers a next state: its unit's registers are legal and its step is taken. -/
theorem exec_next_cases {i : Instr} {s t : State} (h : exec i s = .next t) :
    (∃ b, i = .encByte b ∧ s.enc.legal = true ∧ t = s.encByte b) ∨
    (∃ p, i = .encEnd p ∧ s.enc.legal = true ∧ t = s.encEnd) ∨
    (∃ p, i = .encEndp p ∧ s.enc.legal = true ∧ t = s.encEndp) ∨
    (∃ c, i = .decChar c ∧ s.dec.legal s.posw = true ∧ t = s.decChar c) ∨
    (∃ p, i = .decEnd p ∧ s.dec.legal s.posw = true ∧ t = s.closeDec) ∨
    (∃ id, i = .umxId id ∧ s.enc.legal = true ∧ t = s.umxId id) := by
  cases i with
  | encByte b => exact .inl ⟨b, rfl, (s.onEnc_next_iff _ _).1 h⟩
  | encEnd p => exact .inr (.inl ⟨p, rfl, (s.onEnc_next_iff _ _).1 h⟩)
  | encEndp p => exact .inr (.inr (.inl ⟨p, rfl, (s.onEnc_next_iff _ _).1 h⟩))
  | encReserved p => cases h
  | decChar c => exact .inr (.inr (.inr (.inl ⟨c, rfl, (s.onDec_next_iff _ _).1 h⟩)))
  | decEnd p => exact .inr (.inr (.inr (.inr (.inl ⟨p, rfl, (s.onDec_next_iff _ _).1 h⟩))))
  | umxId id => exact .inr (.inr (.inr (.inr (.inr ⟨id, rfl, (s.onEnc_next_iff _ _).1 h⟩))))

/-- All a step can do when it answers a next state. -/
theorem step_next_cases {s t : State} (h : step s = .next t) :
    (s.input = [] ∧ t = s) ∨
    (∃ w rest, s.input = .token w :: rest ∧ exec (decode w) s.dropAction = .next t) ∨
    (∃ cs rest, s.input = .reset cs :: rest ∧ t = s.dropAction.takeReset) ∨
    (∃ b rest, s.input = .strap b :: rest ∧ t = s.dropAction.setStrap b) := by
  unfold step at h
  split at h
  · rename_i hi
    cases h
    exact .inl ⟨hi, rfl⟩
  · rename_i w rest hi
    exact .inr (.inl ⟨w, rest, hi, h⟩)
  · rename_i cs rest hi
    cases h
    exact .inr (.inr (.inl ⟨cs, rest, hi, rfl⟩))
  · rename_i b rest hi
    cases h
    exact .inr (.inr (.inr ⟨b, rest, hi, rfl⟩))

/-- No instruction faults: every stop is a refusal (R170). -/
theorem exec_ne_fault (i : Instr) (s : State) (f : Fault) : exec i s ≠ .fault f := by cases f

end Sys2Proof.Machine
end

