-- ==== Sys2Proof/Laws/Runs.lean ====
section
/-! SUPPORT. Runs of instructions: one after the other, and in parts. -/

namespace Sys2Proof.Machine

@[simp] theorem execAll_nil (s : State) : execAll [] s = .next s := rfl

/-- A run whose first instruction completes goes on from its next state. -/
theorem execAll_cons_of_next {i : Instr} {s t : State} (h : exec i s = .next t) (is : List Instr) :
    execAll (i :: is) s = execAll is t := by
  simp [execAll, h]

/-- All a run with at least one instruction can do when it answers a next state. -/
theorem execAll_cons_next_iff (i : Instr) (is : List Instr) (s u : State) :
    execAll (i :: is) s = .next u ↔ ∃ t, exec i s = .next t ∧ execAll is t = .next u := by
  cases h : exec i s <;> simp [execAll, h]

/-- A run whose first part completes goes on from that part's next state. -/
theorem execAll_append_of_next {is : List Instr} {s t : State} (h : execAll is s = .next t) (js : List Instr) :
    execAll (is ++ js) s = execAll js t := by
  induction is generalizing s with
  | nil => cases h; rfl
  | cons i is ih =>
    obtain ⟨u, hu, h'⟩ := (execAll_cons_next_iff i is s t).1 h
    exact (execAll_cons_of_next hu (is ++ js)).trans (ih h')

/-- A run of ENC.BYTE on legal registers completes in the state the byte steps give. -/
theorem execAll_encBytes {s : State} (h : s.enc.legal = true) (bs : List Byte) :
    execAll (bs.map .encByte) s = .next (s.encBytes bs) := by
  induction bs generalizing s with
  | nil => rfl
  | cons b bs ih =>
    have hb : exec (.encByte b) s = .next (s.encByte b) := State.onEnc_of_legal h _
    exact (execAll_cons_of_next hb _).trans (ih (s.enc.afterByte_legal b))

end Sys2Proof.Machine
end

