-- ==== Sys2Proof/Tests/Slice0.lean ====
section
/-! SUPPORT. Tests of the model, their expected results from the spec's vectors (95_test_vectors.md), and a witness for every statement that has hypotheses. -/

namespace Sys2Proof.Tests

open Sys2Proof Sys2Proof.Machine

/-! ## Small states -/

/-- The reset state with ENC at (`e_acc`, `e_n`, `e_sym8`). -/
def encAt (acc : BitVec 4) (n : Fin 5) (sym8 : Fin 8) : State :=
  { State.reset with enc := { eAcc := acc, eN := n, eSym8 := sym8 } }

/-- The reset state with DEC at (`d_acc`, `d_n`, `d_pos`, `d_pad`, `d_padpos`, `d_err`). -/
def decAt (acc : BitVec 7) (n : Fin 8) (pos : Nat) (pad : Bool) (padpos : Nat) (err : Bool) : State :=
  { State.reset with dec := { dAcc := acc, dN := n, dPos := pos, dPad := pad, dPadpos := padpos, dErr := err } }

/-- ENC's registers and stream after an instruction. -/
def encView (o : Host.Outcome State Fault Refusal) : Option (EncRegs × List EncOut) :=
  (nextState? o).map fun t => (t.enc, t.encOut)

/-- DEC's registers and stream after an instruction. -/
def decView (o : Host.Outcome State Fault Refusal) : Option (DecRegs × List DecOut) :=
  (nextState? o).map fun t => (t.dec, t.decOut)

/-! ## WellFormed: the one check refuses the reserved encoding and nothing else (R82) -/

theorem test_reserved_is_ill_formed : (Instr.encReserved 0).wellFormed = false := by decide

theorem test_end_with_payload_is_well_formed : (Instr.encEnd 0xFF).wellFormed = true := by decide

/-! ## Decoding: words written out from the formats (R71 to R73) -/

theorem test_decode_encByte : decode (.encIn 0b0010100101#10) = .encByte 0xA5 := by decide

theorem test_decode_encEnd : decode (.encIn 0b0100000011#10) = .encEnd 3 := by decide

theorem test_decode_encEndp : decode (.encIn 0b1000000000#10) = .encEndp 0 := by decide

theorem test_decode_encReserved : decode (.encIn 0b1100000000#10) = .encReserved 0 := by decide

theorem test_decode_decChar : decode (.decIn 0b001011010#9) = .decChar 0x5A := by decide

theorem test_decode_decEnd : decode (.decIn 0b111111111#9) = .decEnd 0xFF := by decide

/-- P4 step 2. -/
theorem test_decode_umxId : decode (.umxIn 0x33221100554477668899AABBCCDDEEFF#128) =
    .umxId #v[0x33, 0x22, 0x11, 0x00, 0x55, 0x44, 0x77, 0x66, 0x88, 0x99, 0xAA, 0xBB, 0xCC, 0xDD, 0xEE, 0xFF] := by decide

theorem test_encode_umxId :
    encode (.umxId #v[0x33, 0x22, 0x11, 0x00, 0x55, 0x44, 0x77, 0x66, 0x88, 0x99, 0xAA, 0xBB, 0xCC, 0xDD, 0xEE, 0xFF]) =
      .umxIn 0x33221100554477668899AABBCCDDEEFF#128 := by decide

theorem test_table_numbering :
    decodeTableWord 10 0x27F = some (.encEndp 0x7F) ∧ decodeTableWord 9 0x141 = some (.decEnd 0x41) ∧
      decodeTableWord 9 0x200 = none ∧ decodeTableWord 12 0 = none := by decide

/-! ## One step each: the Q vectors -/

/-- Q9, both groups of a byte. -/
theorem test_encByte_Q9 :
    encView (exec (.encByte 0xA5) (encAt 0b0010 2 6)) = some ({ eAcc := 0, eN := 0, eSym8 := 0 }, [.char 0x56, .char 0x46]) := by
  decide

/-- Q15, a group across the byte boundary. -/
theorem test_encByte_Q15 :
    encView (exec (.encByte 0xA5) (encAt 0b1010 4 4)) = some ({ eAcc := 1, eN := 2, eSym8 := 6 }, [.char 0x56, .char 0x4A]) := by
  decide

/-- Q21. -/
theorem test_encEnd_Q21 : encView (exec (.encEnd 0) (encAt 0b0011 2 6)) = some (EncRegs.reset, [.char 0x59, .eom]) := by decide

/-- Q17, nothing to flush. -/
theorem test_encEnd_Q17 : encView (exec (.encEnd 0xFF) State.reset) = some (EncRegs.reset, [.eom]) := by decide

/-- Q26. -/
theorem test_encEndp_Q26 :
    encView (exec (.encEndp 0) (encAt 0b1111 4 4)) =
      some (EncRegs.reset, [.char 0x36, .char 0x3D, .char 0x3D, .char 0x3D, .eom]) := by decide

/-- Q18, no pads for the empty message. -/
theorem test_encEndp_Q18 : encView (exec (.encEndp 0) State.reset) = some (EncRegs.reset, [.eom]) := by decide

/-- U3. -/
theorem test_encReserved_refused : nextState? (exec (.encReserved 0x55) State.reset) = none := by decide

/-- Q34, a byte out of a full residue. -/
theorem test_decChar_Q34 :
    decView (exec (.decChar 0x37) (decAt 0b1010101 7 3 false 0 false)) =
      some ({ dAcc := 0b0001111, dN := 4, dPos := 4, dPad := false, dPadpos := 0, dErr := false }, [.byte 0xAB]) := by decide

/-- Q44, the position wraps at `POSW` = 32. -/
theorem test_decChar_Q44 :
    decView (exec (.decChar 0x41) (decAt 0b0000101 3 4294967295 false 0 false)) =
      some ({ dAcc := 0, dN := 0, dPos := 0, dPad := false, dPadpos := 0, dErr := false }, [.byte 0xA0]) := by decide

/-- Q49, a failed message. -/
theorem test_decEnd_Q49 : decView (exec (.decEnd 0) (decAt 0 2 3 true 2 true)) = some (DecRegs.reset, [.eom true]) := by decide

/-- Q47, the residue is dropped unexamined. -/
theorem test_decEnd_Q47 :
    decView (exec (.decEnd 0) (decAt 0b1010101 7 3 false 0 false)) = some (DecRegs.reset, [.eom false]) := by decide

/-- I2: a big-endian host's identifier passes through. -/
theorem test_umxId_I2 :
    encView (exec (.umxId #v[0, 1, 2, 3, 4, 5, 6, 7, 8, 9, 0xA, 0xB, 0xC, 0xD, 0xE, 0xF]) State.reset) =
      some (EncRegs.reset,
        [0x41, 0x41, 0x41, 0x51, 0x45, 0x41, 0x59, 0x45, 0x41, 0x55, 0x44, 0x41, 0x4F, 0x43, 0x41, 0x4A, 0x42, 0x49, 0x46, 0x51,
          0x59, 0x44, 0x49, 0x4F, 0x42, 0x34].map EncOut.char ++ [.eom]) := by decide

/-- I1: a little-endian host's identifier is reordered. -/
theorem test_umxId_I1 :
    encView (exec (.umxId #v[0, 1, 2, 3, 4, 5, 6, 7, 8, 9, 0xA, 0xB, 0xC, 0xD, 0xE, 0xF]) { State.reset with hostLe := true }) =
      some (EncRegs.reset,
        [0x41, 0x4D, 0x42, 0x41, 0x43, 0x41, 0x41, 0x46, 0x41, 0x51, 0x44, 0x51, 0x4D, 0x43, 0x41, 0x4A, 0x42, 0x49, 0x46, 0x51,
          0x59, 0x44, 0x49, 0x4F, 0x42, 0x34].map EncOut.char ++ [.eom]) := by decide

/-- P5 step 4: reset clears the registers, and the token presented with it is not processed (R190). -/
theorem test_reset_wins_over_a_token :
    (nextState? (step { decAt 0b0110111 7 3 false 0 false with input := [.reset [.decIn 0x041]] })) =
      some State.reset := by decide

/-! ## The message-level functions -/

/-- E3, K8, F3 and F19 of 95_test_vectors.md. -/
theorem test_codec_vectors :
    Codec.encode [0x66, 0x6F] true = [0x4D, 0x5A, 0x58, 0x51, 0x3D, 0x3D, 0x3D, 0x3D] ∧
      Codec.decode [0x4D, 0x5A] = .bytes [0x66] ∧
      Codec.decode [0x41, 0x41, 0x3D, 0x31] = .invalidSymbol 0x3D 2 ∧
      Codec.decode [0x4D, 0x5A, 0x58, 0x57, 0x36, 0x59, 0x54, 0x21] = .invalidSymbol 0x21 7 := by decide

/-! ## Witnesses: each meets the hypotheses of the statement it is named after -/

theorem witness_KindFieldPicksTheInstruction :
    (0x0FF#10).extractLsb' 8 2 = 0#2 ∧ (0x100#10).extractLsb' 8 2 = 1#2 ∧ (0x200#10).extractLsb' 8 2 = 2#2 ∧
      (0x300#10).extractLsb' 8 2 = 3#2 ∧ (0x0FF#9).extractLsb' 8 1 = 0#1 ∧ (0x100#9).extractLsb' 8 1 = 1#1 := by decide

theorem witness_OneOpcodeRowCoversEachWord :
    ∃ r ∈ opcodeTable, r.covers (.encIn 0x2FF#10) = true ∧ r.covers (.encIn 0x300#10) = false := by decide

theorem witness_ReservedKindIsRefused : 0x300 ≤ (0x300#10).toNat ∧ 0x300 ≤ (0x3FF#10).toNat := by decide

theorem witness_AlphabetTable : alpha 25 = 0x5A ∧ alpha 26 = 0x32 ∧ alpha 31 = 0x37 := by decide

/-- Every range of R78 at both of its ends. -/
theorem witness_ReverseTable :
    rev 0x41 = .sym 0 ∧ rev 0x5A = .sym 25 ∧ rev 0x61 = .sym 0 ∧ rev 0x7A = .sym 25 ∧ rev 0x32 = .sym 26 ∧ rev 0x37 = .sym 31 ∧
      rev 0x3D = .pad ∧ rev 0x00 = .inv ∧ rev 0x31 = .inv ∧ rev 0x38 = .inv ∧ rev 0x3C = .inv ∧ rev 0x3E = .inv ∧
      rev 0x40 = .inv ∧ rev 0x5B = .inv ∧ rev 0x60 = .inv ∧ rev 0x7B = .inv ∧ rev 0xFF = .inv := by decide

theorem witness_StepRunsTheDecodedToken :
    (State.reset.present (.token (.decIn 0x13D))).input = [.token (.decIn 0x13D)] ∧ decode (.decIn 0x13D) = .decEnd 0x3D ∧
      decodeTableWord 16 0x0A5 = some (.encByte 0xA5) := by decide

theorem witness_ResetEventClearsTheRegisters :
    (State.reset.present (.reset [.encIn 0x066])).input = [.reset [.encIn 0x066]] := by decide

theorem witness_StrapAndIdleSteps :
    (State.reset.present (.strap true)).input = [.strap true] ∧ State.reset.input = [] := by decide

theorem witness_EncByteResult :
    (encAt 0b1111 4 7).enc.legal = true ∧ (encAt 0 0 0).enc.legal = true ∧ State.reset.enc = EncRegs.reset := by decide

theorem witness_EncByteByCases :
    (encAt 0 0 7).enc.legal = true ∧ (encAt 1 1 3).enc.legal = true ∧ (encAt 3 2 6).enc.legal = true ∧
      (encAt 7 3 1).enc.legal = true ∧ (encAt 15 4 4).enc.legal = true := by decide

theorem witness_EncEndResult :
    (encAt 0 0 0).enc.legal = true ∧ (encAt 15 4 4).enc.legal = true ∧ (encAt 6 3 1).enc = { eAcc := 6, eN := 3, eSym8 := 1 } := by
  decide

/-- The block counter at 7 wraps to no pad at all. -/
theorem witness_EncEndpResult :
    (encAt 1 1 7).enc.legal = true ∧ (encAt 6 3 1).enc.paired = true ∧
      encView (exec (.encEndp 0) (encAt 1 1 7)) = some (EncRegs.reset, [.char 0x51, .eom]) := by decide

theorem witness_EncoderStepsRefineEncode : State.reset.enc = EncRegs.reset := by decide

theorem witness_EncoderCountersFollowTheByteCount : (decAt 1 1 9 false 0 true).enc = EncRegs.reset := by decide

theorem witness_DecSymbolInNormalMode :
    (decAt 127 7 4294967295 false 4294967295 false).dec.legal 32 = true ∧
      (decAt 127 7 4294967295 false 4294967295 false).dec.dErr = false ∧
      (decAt 127 7 4294967295 false 4294967295 false).dec.dPad = false ∧ rev 0x7A = .sym 25 ∧ rev 0x5A = .sym 25 ∧
      State.reset.dec = DecRegs.reset ∧ 2 ≤ State.reset.posw := by decide

theorem witness_DecBrokenPadRunBlamesItsFirstPad :
    (decAt 0 2 3 true 2 false).dec.legal 32 = true ∧ (decAt 0 2 3 true 2 false).dec.dErr = false ∧
      (decAt 0 2 3 true 2 false).dec.dPad = true ∧ rev 0x41 ≠ .pad ∧ rev 0x31 ≠ .pad ∧
      State.reset.dec = DecRegs.reset ∧ 2 ≤ State.reset.posw := by decide

theorem witness_DecPadCharacterDefersTheVerdict :
    (decAt 0 2 2 false 0 false).dec.legal 32 = true ∧ (decAt 0 2 4294967295 true 2 false).dec.legal 32 = true ∧
      (decAt 0 2 2 false 0 false).dec.dErr = false ∧ rev 0x3D = .pad ∧ 3 ≤ State.reset.posw := by decide

theorem witness_DecForeignCharacterRaises :
    (decAt 0 2 2 false 0 false).dec.legal 32 = true ∧ rev 0x60 = .inv ∧ rev 0x7B = .inv ∧ rev 0xFF = .inv := by decide

theorem witness_DecErrorModeSwallows :
    (decAt 0 2 3 true 2 true).dec.legal 32 = true ∧ (decAt 0 2 3 true 2 true).dec.dErr = true := by decide

theorem witness_DecEndResult :
    (decAt 127 7 3 false 0 false).dec.legal 32 = true ∧ State.reset.dec = DecRegs.reset := by decide

theorem witness_DecoderStepsRefineDecode : (encAt 15 4 4).dec = DecRegs.reset := by decide

/-- Q41. -/
theorem witness_RaiseIsPreciseAndReported :
    decView (exec (.decChar 0x31) (decAt 0 2 3 true 2 false)) =
      some ({ dAcc := 0, dN := 2, dPos := 3, dPad := true, dPadpos := 2, dErr := true }, [.err 0x3D 2]) := by decide

/-- Each of the three clauses: a raise, a pad run opening, and both ways of clearing. -/
theorem witness_FlagsChangeOnlyAsStated :
    (decView (step { decAt 0 0 0 false 0 false with input := [.token (.decIn 0x030)] })).map (fun v => v.1.dErr) = some true ∧
      (decView (step { decAt 0 0 0 false 0 false with input := [.token (.decIn 0x03D)] })).map (fun v => v.1.dPad) = some true ∧
      (decView (step { decAt 0 2 3 true 2 true with input := [.token (.decIn 0x100)] })).map (fun v => v.1.dErr) = some false ∧
      (decView (step { decAt 0 2 3 true 2 false with input := [.reset []] })).map (fun v => v.1.dPad) = some false := by decide

theorem witness_UmxIdIsTheBurst :
    (encAt 6 3 1).enc.legal = true ∧ { State.reset with hostLe := true }.enc = EncRegs.reset := by decide

theorem witness_UmxIdRefinesIdentifierToBase32 : { State.reset with hostLe := true }.enc = EncRegs.reset := by decide

theorem witness_UmxIdInsideAnOpenMessage : State.reset.enc = EncRegs.reset := by decide

/-- Two identifiers that differ in their last byte only. -/
theorem witness_IdentifierStringsAreDistinct :
    (#v[0, 0, 0, 0, 0, 0, 0, 0, 0, 0, 0, 0, 0, 0, 0, 0] : Ident) ≠ #v[0, 0, 0, 0, 0, 0, 0, 0, 0, 0, 0, 0, 0, 0, 0, 1] := by decide

theorem witness_EncodeIsInjective :
    Codec.encode [0x66] true = Codec.encode [0x66] true ∧
      Codec.encode [0xFF, 0xFF, 0xFF, 0xFF, 0xFF] true = Codec.encode [0xFF, 0xFF, 0xFF, 0xFF, 0xFF] false := by decide

theorem witness_AlphabetClosure :
    0x4D ∈ Codec.encode [0x66] false ∧ 0x59 ∈ (Codec.encode [0x66] true).take 2 ∧ 0x3D ∈ (Codec.encode [0x66] true).drop 2 := by
  decide

/-- K8 and K26: accepted strings that are not canonical, beside one that is. -/
theorem witness_CanonicalStringsAreTheFixedPoints :
    Codec.canonical [0x4D, 0x59] = true ∧ Codec.canonical [0x4D, 0x5A] = false ∧ Codec.canonical [0x41, 0x41, 0x41] = false := by
  decide

/-- K26: three symbols give one byte. -/
theorem witness_DecodeLengthAndLeniency : Codec.decode [0x41, 0x41, 0x41] = .bytes [0x00] := by decide

theorem witness_MisplacedPadIsReported : rev 0x41 = .sym 0 ∧ (0x41 : Code) ≠ 0x3D ∧ (0x20 : Code) ≠ 0x3D := by decide

theorem witness_CodecPrefixProperties :
    [0x66, 0x6F, 0x6F, 0x62, 0x61].length % 5 = 0 ∧ [0x41, 0x41, 0x41, 0x41, 0x41, 0x41, 0x41, 0x41].length % 8 = 0 ∧
      rev 0x41 = .sym 0 := by decide

theorem witness_StepKeepsTheRegisterInvariant :
    (encAt 15 4 4).inv = true ∧
      encView (step { encAt 15 4 4 with input := [.token (.encIn 0x0FF)] }) =
        some ({ eAcc := 3, eN := 2, eSym8 := 6 }, [.char 0x37, .char 0x37]) := by decide

theorem witness_StepKeepsTheOutputsOk :
    (decAt 0 2 2 false 0 false).inv = true ∧ (decAt 0 2 2 false 0 false).outputsOk = true ∧
      decView (step { decAt 0 2 2 false 0 false with input := [.token (.decIn 0x031)] }) =
        some ({ dAcc := 0, dN := 2, dPos := 2, dPad := false, dPadpos := 0, dErr := true }, [.err 0x31 2]) := by decide

theorem witness_OnlyTheReservedTokenStops :
    { State.reset with input := [.token (.encIn 0x3FF)] }.inv = true ∧
      nextState? (step { State.reset with input := [.token (.encIn 0x3FF)] }) = none := by decide

/-- A residue bit above the count, in each unit, and a position that does not fit. -/
theorem witness_IllegalRegistersAreRefused :
    onEncSide (.encEnd 0) = true ∧ (encAt 1 0 0).enc.legal = false ∧ onDecSide (.decChar 0x41) = true ∧
      (decAt 1 0 0 false 0 false).dec.legal 32 = false ∧ (decAt 0 0 4294967296 false 0 false).dec.legal 32 = false := by decide

theorem witness_EncAndDecStepsCommute :
    onEncSide (.encByte 0xFF) = true ∧ onDecSide (.decChar 0x37) = true ∧
      (nextState? (exec (.encByte 0xFF) State.reset)).isSome = true ∧
      (nextState? (exec (.decChar 0x37) State.reset)).isSome = true := by decide

theorem witness_EachUnitLeavesTheOtherAlone :
    (nextState? (exec (.encEndp 0) (decAt 0 2 2 true 1 false))).map (fun t => t.dec) = some (decAt 0 2 2 true 1 false).dec ∧
      (nextState? (exec (.decEnd 0) (encAt 6 3 1))).map (fun t => t.enc) = some (encAt 6 3 1).enc := by decide

theorem witness_StreamsOnlyGrow :
    (nextState? (step { State.reset with encOut := [.eom], input := [.token (.encIn 0x066)] })).map (fun t => t.encOut) =
      some [.eom, .char 0x4D] := by decide

/-- ENC.ENDP at its bound of 8 tokens: `"Y"`, six `'='`, EOM (P1 step 7's shape). -/
theorem witness_OutputTokensPerStep :
    (encAt 6 3 1).inv = true ∧
      (nextState? (exec (.encEndp 0) (encAt 6 3 1))).map (fun t => t.encOut.length) = some 8 := by decide

theorem witness_MessagesAreIndependent :
    (encAt 15 4 4).enc.legal = true ∧ (decAt 0 2 2 false 0 false).dec.legal 32 = true ∧
      { State.reset with encOut := [.eom] }.enc = State.reset.enc ∧
      (nextState? (execAll [.encByte 0x66, .encEnd 0] { State.reset with encOut := [.eom] })).isSome = true := by decide

theorem witness_OnlyUmxIdReadsTheStrap :
    (∀ id, Instr.encEnd 0 ≠ .umxId id) ∧ (nextState? (exec (.encEnd 0) State.reset)).isSome = true :=
  ⟨fun _ h => Instr.noConfusion h, by decide⟩

/-- Two states that differ in position and width only. -/
theorem witness_PositionsReachOnlyTheReport :
    { decAt 0 2 1 true 1 false with posw := 1 }.dec.forgetPos = (decAt 0 2 7 true 5 false).dec.forgetPos ∧
      { decAt 0 2 1 true 1 false with posw := 1 }.dec.legal 1 = true ∧
      (nextState? (exec (.decChar 0x41) (decAt 0 2 7 true 5 false))).isSome = true := by decide

/-- A character, a strap setting, an abandoning reset, then an identifier. -/
theorem witness_CompleteRunEndsInTheResetState :
    neverReserved [.token (.decIn 0x041), .strap true, .reset [.encIn 0x300], .token (.umxIn 0)] = true ∧
      completeRun [.token (.decIn 0x041), .strap true, .reset [.encIn 0x300], .token (.umxIn 0)] = true ∧
      completeRun [.token (.decIn 0x041)] = false ∧ umxOnlyBetween [.token (.encIn 0x066), .token (.umxIn 0)] false = false := by
  decide

theorem witness_MacroResultsAreTheSourceFunctions :
    [0x41, 0x41, 0x3D].length < 2 ^ { State.reset with posw := 2 }.posw ∧
      decResult [.byte 0x00, .err 0x3D 2, .eom true] = some (.invalidSymbol 0x3D 2) ∧
      decResult [.byte 0x66, .eom false, .eom true] = some (.bytes [0x66]) ∧
      encResult [.char 0x4D, .char 0x59, .eom, .char 0x41] = some [0x4D, 0x59] := by decide

end Sys2Proof.Tests
end

