-- ==== Sys2Proof/Proofs/Step.lean ====
section
/-! SUPPORT. One equation for the step on a token, and what presenting a word of the table's numbering does. -/

namespace Sys2Proof.Machine

/-- A token that is the next action is decoded and executed, off the input (R7, R79). -/
theorem step_of_input_token {s : State} {w : PortWord} {rest : List HostAction} (h : s.input = .token w :: rest) :
    step s = exec (decode w) { s with input := rest } := by
  have hdrop : s.dropAction = { s with input := rest } := by simp [State.dropAction, h]
  rw [← hdrop]
  simp [step, h]

/-- Taking the action just presented gives the state back. -/
@[simp] theorem State.dropAction_present (a : HostAction) (s : State) : (s.present a).dropAction = s := rfl

/-- A step on a token just presented executes it in the state it was presented in. -/
theorem step_present_token (w : PortWord) (s : State) : step (s.present (.token w)) = exec (decode w) s :=
  step_of_input_token (State.present_input _ s)

/-- The table's numbering gives an instruction exactly when it means a word that decodes to it. -/
theorem decodeTableWord_eq_some_iff {nbits w : Nat} {i : Instr} :
    decodeTableWord nbits w = some i ↔ ∃ pw, wordOfTable nbits w = .ok pw ∧ decode pw = i := by
  unfold decodeTableWord
  cases wordOfTable nbits w with
  | ok pw => simp
  | error e => simp

/-- A number that means a word presents that word (log 10). -/
theorem State.withFetchWord_of_ok {nbits w : Nat} {pw : PortWord} (h : wordOfTable nbits w = .ok pw) (s : State) :
    s.withFetchWord nbits w = s.present (.token pw) := by
  simp [State.withFetchWord, h]

end Sys2Proof.Machine
end

