-- ==== Sys2Proof/Proofs/Scope.lean ====
section
/-! The settled statement of 00_scope.md. -/

open Sys2Proof Sys2Proof.Machine

/-- Settles O11: both clauses are the step's equation on a token, the second through the word the numbering means. -/
theorem stepRunsTheDecodedToken : Obligations.StepRunsTheDecodedToken := by
  unfold Obligations.StepRunsTheDecodedToken
  constructor
  · intro s w rest i hin hdec
    rw [step_of_input_token hin, hdec]
  · intro s nbits w i hdec
    obtain ⟨pw, hword, rfl⟩ := decodeTableWord_eq_some_iff.1 hdec
    rw [State.withFetchWord_of_ok hword, step_present_token]

end

