-- ==== Sys2Proof/Proofs/Hidden.lean ====
section
/-! SUPPORT. Changes of the state that a unit's steps cannot see: such a change may be made before or after the step. -/

namespace Sys2Proof.Machine

/-- A change `g` that ENC's steps neither read nor undo: it keeps ENC's registers and passes through both of ENC's writes. -/
structure HiddenFromEnc (g : State → State) : Prop where
  enc : ∀ s, (g s).enc = s.enc
  setEnc : ∀ r s, (g s).setEnc r = g (s.setEnc r)
  emitEnc : ∀ ts s, (g s).emitEnc ts = g (s.emitEnc ts)

/-- A change `g` that DEC's steps neither read nor undo: it keeps DEC's registers and `POSW` and passes through both of DEC's writes. -/
structure HiddenFromDec (g : State → State) : Prop where
  dec : ∀ s, (g s).dec = s.dec
  posw : ∀ s, (g s).posw = s.posw
  setDec : ∀ r s, (g s).setDec r = g (s.setDec r)
  emitDec : ∀ ts s, (g s).emitDec ts = g (s.emitDec ts)

/-- `g` on the next state of an outcome that has one. -/
def mapNext (g : State → State) : Host.Outcome State Fault Refusal → Host.Outcome State Fault Refusal
  | .next s => .next (g s)
  | .fault f => .fault f
  | .refused r => .refused r

@[simp] theorem mapNext_next (g : State → State) (s : State) : mapNext g (.next s) = .next (g s) := rfl

theorem mapNext_eq_next_iff {g : State → State} {o : Host.Outcome State Fault Refusal} {t : State} :
    mapNext g o = .next t ↔ ∃ u, o = .next u ∧ g u = t := by
  cases o <;> simp [mapNext]

section Enc

variable {g : State → State} (hg : HiddenFromEnc g)
include hg

theorem HiddenFromEnc.encByte (b : Byte) (s : State) : (g s).encByte b = g (s.encByte b) := by
  simp only [State.encByte, hg.enc, hg.setEnc, hg.emitEnc]

theorem HiddenFromEnc.closeEnc (ts : List EncOut) (s : State) : (g s).closeEnc ts = g (s.closeEnc ts) := by
  simp only [State.closeEnc, hg.setEnc, hg.emitEnc]

theorem HiddenFromEnc.encEnd (s : State) : (g s).encEnd = g s.encEnd := by
  simp only [State.encEnd, hg.enc, hg.closeEnc]

theorem HiddenFromEnc.encEndp (s : State) : (g s).encEndp = g s.encEndp := by
  simp only [State.encEndp, hg.enc, hg.closeEnc]

theorem HiddenFromEnc.encBytes (bs : List Byte) (s : State) : (g s).encBytes bs = g (s.encBytes bs) := by
  induction bs generalizing s with
  | nil => rfl
  | cons b bs ih => rw [State.encBytes_cons, hg.encByte, ih, State.encBytes_cons]

/-- UMX.ID reads one thing besides ENC's registers: the strap (R29, R143). -/
theorem HiddenFromEnc.umxId (hle : ∀ s, (g s).hostLe = s.hostLe) (id : Ident) (s : State) :
    (g s).umxId id = g (s.umxId id) := by
  simp only [State.umxId, hle, hg.encBytes, hg.encEnd]

/-- The guard of an ENC step does not see a hidden change either. -/
theorem HiddenFromEnc.onEnc {f : State → State} (hf : ∀ s, f (g s) = g (f s)) (s : State) :
    (g s).onEnc f = mapNext g (s.onEnc f) := by
  unfold State.onEnc
  rw [hg.enc, hf]
  split <;> rfl

end Enc

section Dec

variable {g : State → State} (hg : HiddenFromDec g)
include hg

theorem HiddenFromDec.decSymbol (v : Group) (s : State) : (g s).decSymbol v = g (s.decSymbol v) := by
  simp only [State.decSymbol, hg.dec, hg.posw, hg.setDec, hg.emitDec]

theorem HiddenFromDec.decPad (s : State) : (g s).decPad = g s.decPad := by
  simp only [State.decPad, hg.dec, hg.posw, hg.setDec]

theorem HiddenFromDec.raiseInvalidSymbol (c : Code) (p : Nat) (s : State) :
    (g s).raiseInvalidSymbol c p = g (s.raiseInvalidSymbol c p) := by
  simp only [State.raiseInvalidSymbol, hg.dec, hg.setDec, hg.emitDec]

/-- DEC.CHAR picks its arm by DEC's mode, and each arm passes the change through. -/
theorem HiddenFromDec.decChar (c : Code) (s : State) : (g s).decChar c = g (s.decChar c) := by
  unfold State.decChar
  rw [hg.dec]
  split
  · rfl
  · exact hg.decSymbol _ s
  · exact hg.decPad s
  · exact hg.raiseInvalidSymbol _ _ s
  · exact hg.decPad s
  · exact hg.raiseInvalidSymbol _ _ s
  · exact hg.raiseInvalidSymbol _ _ s

theorem HiddenFromDec.closeDec (s : State) : (g s).closeDec = g s.closeDec := by
  simp only [State.closeDec, hg.dec, hg.setDec, hg.emitDec]

/-- The guard of a DEC step does not see a hidden change either. -/
theorem HiddenFromDec.onDec {f : State → State} (hf : ∀ s, f (g s) = g (f s)) (s : State) :
    (g s).onDec f = mapNext g (s.onDec f) := by
  unfold State.onDec
  rw [hg.dec, hg.posw, hf]
  split <;> rfl

end Dec

section Block

variable {g : State → State} (he : HiddenFromEnc g) (hd : HiddenFromDec g)
include he hd

/-- A change hidden from both units is hidden from every instruction but UMX.ID, which may see the strap. -/
theorem exec_hidden_of_ne_umxId {i : Instr} (hi : ∀ id, i ≠ .umxId id) (s : State) : exec i (g s) = mapNext g (exec i s) := by
  cases i with
  | encByte b => exact he.onEnc (he.encByte b) s
  | encEnd p => exact he.onEnc he.encEnd s
  | encEndp p => exact he.onEnc he.encEndp s
  | encReserved p => rfl
  | decChar c => exact hd.onDec (hd.decChar c) s
  | decEnd p => exact hd.onDec hd.closeDec s
  | umxId id => exact absurd rfl (hi id)

/-- A change hidden from both units that keeps the strap is hidden from every instruction. -/
theorem exec_hidden (hle : ∀ s, (g s).hostLe = s.hostLe) (i : Instr) (s : State) : exec i (g s) = mapNext g (exec i s) := by
  by_cases hi : ∃ id, i = .umxId id
  · obtain ⟨id, rfl⟩ := hi
    exact he.onEnc (he.umxId hle id) s
  · exact exec_hidden_of_ne_umxId he hd (not_exists.1 hi) s

/-- Such a change is hidden from every run of instructions. -/
theorem execAll_hidden (hle : ∀ s, (g s).hostLe = s.hostLe) (is : List Instr) (s : State) :
    execAll is (g s) = mapNext g (execAll is s) := by
  induction is generalizing s with
  | nil => rfl
  | cons i is ih =>
    simp only [execAll, exec_hidden he hd hle]
    cases exec i s with
    | next t => exact ih t
    | fault f => rfl
    | refused r => rfl

end Block

/-- The strap's level is hidden from ENC. -/
theorem setStrap_hiddenFromEnc (b : Bool) : HiddenFromEnc (State.setStrap b) :=
  ⟨fun _ => rfl, fun _ _ => rfl, fun _ _ => rfl⟩

/-- The strap's level is hidden from DEC. -/
theorem setStrap_hiddenFromDec (b : Bool) : HiddenFromDec (State.setStrap b) :=
  ⟨fun _ => rfl, fun _ => rfl, fun _ _ => rfl, fun _ _ => rfl⟩

/-- `s` with the history of `past`: the streams of `s` come after those of `past`, whose host actions are the pending ones. -/
def State.continuedBy (past s : State) : State :=
  { s with input := past.input, encOut := past.encOut ++ s.encOut, decOut := past.decOut ++ s.decOut }

/-- `s` with no history: its registers and parameters, nothing pending, nothing delivered. -/
def State.fresh (s : State) : State := { s with input := [], encOut := [], decOut := [] }

/-- A state is the history it has and the fresh state of its registers and parameters. -/
theorem State.continuedBy_fresh {s s' : State} (henc : s.enc = s'.enc) (hdec : s.dec = s'.dec) (hle : s.hostLe = s'.hostLe)
    (hposw : s.posw = s'.posw) : s'.continuedBy s.fresh = s' := by
  simp [State.continuedBy, State.fresh, henc, hdec, hle, hposw]

/-- History is hidden from ENC. -/
theorem State.continuedBy_hiddenFromEnc (past : State) : HiddenFromEnc past.continuedBy :=
  ⟨fun _ => rfl, fun _ _ => rfl, fun ts s => by simp [State.continuedBy, State.emitEnc, List.append_assoc]⟩

/-- History is hidden from DEC. -/
theorem State.continuedBy_hiddenFromDec (past : State) : HiddenFromDec past.continuedBy :=
  ⟨fun _ => rfl, fun _ => rfl, fun _ _ => rfl, fun ts s => by simp [State.continuedBy, State.emitDec, List.append_assoc]⟩

/-- A run goes on from any history as it goes from none (R35). -/
theorem execAll_continuedBy (past : State) (is : List Instr) (s : State) :
    execAll is (past.continuedBy s) = mapNext past.continuedBy (execAll is s) :=
  execAll_hidden past.continuedBy_hiddenFromEnc past.continuedBy_hiddenFromDec (fun _ => rfl) is s

end Sys2Proof.Machine
end

