-- ==== Sys2Proof/Proofs/Flags.lean ====
section
/-! SUPPORT. What the steps do to the two flags `d_err` and `d_pad` (R28). -/

namespace Sys2Proof.Machine

@[simp] theorem DecRegs.setErr_dErr (r : DecRegs) : r.setErr.dErr = true := rfl
@[simp] theorem DecRegs.setErr_dPad (r : DecRegs) : r.setErr.dPad = r.dPad := rfl
@[simp] theorem DecRegs.afterPad_dErr (posw : Nat) (r : DecRegs) : (r.afterPad posw).dErr = r.dErr := rfl
@[simp] theorem DecRegs.afterPad_dPad (posw : Nat) (r : DecRegs) : (r.afterPad posw).dPad = true := rfl
@[simp] theorem DecRegs.afterSym_dErr (posw : Nat) (r : DecRegs) (v : Group) : (r.afterSym posw v).dErr = r.dErr := rfl
@[simp] theorem DecRegs.afterSym_dPad (posw : Nat) (r : DecRegs) (v : Group) : (r.afterSym posw v).dPad = r.dPad := rfl

/-- Only `'='` has the class of the pad character (R78). -/
theorem rev_eq_pad_iff (c : Code) : rev c = .pad ↔ c = 0x3D := by
  revert c
  decide

/-- When `d_err` is set after DEC.CHAR: it was, or a character outside the alphabet came, or a pad run was broken (R125, R127, R128). -/
theorem State.decChar_dErr_iff (c : Code) (s : State) :
    (s.decChar c).dec.dErr = true ↔ s.dec.dErr = true ∨ rev c = .inv ∨ (s.dec.dPad = true ∧ rev c ≠ .pad) := by
  obtain ⟨herr, h⟩ | ⟨v, herr, hpad, hrev, h⟩ | ⟨herr, hrev, h⟩ | ⟨herr, hpad, hrev, h⟩ | ⟨herr, hpad, hrev, h⟩ :=
    s.decChar_cases c
  · simp [h, herr]
  · simp [h, herr, hpad, hrev]
  · simp [h, herr, hrev]
  · simp [h, hrev]
  · simp [h, hpad, hrev]

/-- When `d_pad` is set after DEC.CHAR: it was, or an `'='` came outside mode ERROR (R126). -/
theorem State.decChar_dPad_iff (c : Code) (s : State) :
    (s.decChar c).dec.dPad = true ↔ s.dec.dPad = true ∨ (s.dec.dErr = false ∧ c = 0x3D) := by
  rw [← rev_eq_pad_iff]
  obtain ⟨herr, h⟩ | ⟨v, herr, hpad, hrev, h⟩ | ⟨herr, hrev, h⟩ | ⟨herr, hpad, hrev, h⟩ | ⟨herr, hpad, hrev, h⟩ :=
    s.decChar_cases c
  · simp [h, herr]
  · simp [h, hpad, hrev]
  · simp [h, herr, hrev]
  · simp [h, hpad, hrev]
  · simp [h, hpad]

/-- DEC.CHAR, when it completes, takes the step of its arm. -/
theorem exec_decChar_next {c : Code} {s t : State} (h : exec (.decChar c) s = .next t) : t = s.decChar c :=
  ((s.onDec_next_iff t _).1 h).2

/-- DEC.END, when it completes, closes the message. -/
theorem exec_decEnd_next {p : Byte} {s t : State} (h : exec (.decEnd p) s = .next t) : t = s.closeDec :=
  ((s.onDec_next_iff t _).1 h).2

/-- Only DEC.CHAR and DEC.END change DEC's registers (R20, R58). -/
theorem exec_dec_eq_or {i : Instr} {s t : State} (h : exec i s = .next t) :
    t.dec = s.dec ∨ (∃ c, i = .decChar c) ∨ (∃ p, i = .decEnd p) := by
  obtain ⟨b, -, -, rfl⟩ | ⟨p, -, -, rfl⟩ | ⟨p, -, -, rfl⟩ | ⟨c, hi, -, -⟩ | ⟨p, hi, -, -⟩ | ⟨id, -, -, rfl⟩ :=
    exec_next_cases h
  · exact .inl (s.encByte_dec b)
  · exact .inl s.encEnd_dec
  · exact .inl s.encEndp_dec
  · exact .inr (.inl ⟨c, hi⟩)
  · exact .inr (.inr ⟨p, hi⟩)
  · exact .inl (s.umxId_frame id).2.1

/-- Over a step of the block, only DEC.CHAR, DEC.END and reset change DEC's registers (R28, R58). -/
theorem step_dec_eq_or {s t : State} (h : step s = .next t) :
    t.dec = s.dec ∨
    (∃ (w : PortWord) (rest : List HostAction) (c : Code), s.input = .token w :: rest ∧ decode w = .decChar c) ∨
    (∃ (w : PortWord) (rest : List HostAction) (p : Byte), s.input = .token w :: rest ∧ decode w = .decEnd p) ∨
    (∃ (coincident : List PortWord) (rest : List HostAction), s.input = .reset coincident :: rest) := by
  obtain ⟨-, rfl⟩ | ⟨w, rest, hin, hex⟩ | ⟨cs, rest, hin, -⟩ | ⟨b, rest, -, rfl⟩ := step_next_cases h
  · exact .inl rfl
  · obtain hsame | ⟨c, hc⟩ | ⟨p, hp⟩ := exec_dec_eq_or hex
    · exact .inl hsame
    · exact .inr (.inl ⟨w, rest, c, hin, hc⟩)
    · exact .inr (.inr (.inl ⟨w, rest, p, hin, hp⟩))
  · exact .inr (.inr (.inr ⟨cs, rest, hin⟩))
  · exact .inl rfl

/-- A reset that is the next action is taken, its coincident tokens dropped (R190). -/
theorem step_of_input_reset {s : State} {cs : List PortWord} {rest : List HostAction} (h : s.input = .reset cs :: rest) :
    step s = .next s.dropAction.takeReset := by
  simp [step, h]

end Sys2Proof.Machine
end

