-- ==== Sys2Proof/Proofs/State.lean ====
section
/-! The settled statements of 10_state.md. -/

open Sys2Proof Sys2Proof.Machine

/-- Settles O29: the flags' equations for DEC.CHAR's arms, the close and the reset; no other step changes DEC's registers. -/
theorem flagsChangeOnlyAsStated : Obligations.FlagsChangeOnlyAsStated := by
  unfold Obligations.FlagsChangeOnlyAsStated
  intro s t hstep
  refine ⟨?_, ?_, ?_, ?_⟩
  · intro w rest c hin hdec
    rw [step_of_input_token hin, hdec] at hstep
    rw [exec_decChar_next hstep]
    exact ⟨State.decChar_dErr_iff c _, State.decChar_dPad_iff c _⟩
  · intro w rest p hin hdec
    rw [step_of_input_token hin, hdec] at hstep
    rw [exec_decEnd_next hstep]
    exact ⟨rfl, rfl, rfl⟩
  · intro coincident rest hin
    rw [step_of_input_reset hin] at hstep
    cases hstep
    exact ⟨rfl, rfl⟩
  · intro hflag
    obtain hsame | hcause := step_dec_eq_or hstep
    · simp [hsame] at hflag
    · exact hcause

/-- Settles O56: the end tokens close their unit's message; and a run appends to any history what it appends to none, as history is
hidden from every instruction. -/
theorem messagesAreIndependent : Obligations.MessagesAreIndependent := by
  unfold Obligations.MessagesAreIndependent
  refine ⟨?_, ?_, ?_⟩
  · intro s p hl
    exact ⟨s.encEnd, s.encEndp, State.onEnc_of_legal hl _, s.encEnd_enc, State.onEnc_of_legal hl _, s.encEndp_enc⟩
  · intro s p hl
    exact ⟨s.closeDec, State.onDec_of_legal hl _, s.closeDec_dec⟩
  · intro is s s' t henc hdec hle hposw hrun
    have hs : s.continuedBy s.fresh = s := State.continuedBy_fresh rfl rfl rfl rfl
    have hs' : s'.continuedBy s.fresh = s' := State.continuedBy_fresh henc hdec hle hposw
    obtain ⟨u, hu, rfl⟩ : ∃ u, execAll is s.fresh = .next u ∧ s.continuedBy u = t := by
      rw [← mapNext_eq_next_iff, ← execAll_continuedBy, hs, hrun]
    have hrun' : execAll is s' = .next (s'.continuedBy u) := by
      calc execAll is s' = execAll is (s'.continuedBy s.fresh) := by rw [hs']
        _ = mapNext s'.continuedBy (execAll is s.fresh) := execAll_continuedBy s' is s.fresh
        _ = .next (s'.continuedBy u) := by rw [hu, mapNext_next]
    exact ⟨s'.continuedBy u, u.encOut, u.decOut, hrun', rfl, rfl, rfl, rfl, rfl, rfl⟩

/-- Settles O57: the strap's setting is hidden from both units, so it commutes with every instruction but UMX.ID. -/
theorem onlyUmxIdReadsTheStrap : Obligations.OnlyUmxIdReadsTheStrap := by
  unfold Obligations.OnlyUmxIdReadsTheStrap
  intro i s t b hi hex
  have hcomm : exec i (s.setStrap b) = mapNext (State.setStrap b) (exec i s) :=
    exec_hidden_of_ne_umxId (setStrap_hiddenFromEnc b) (setStrap_hiddenFromDec b) hi s
  rw [hex] at hcomm
  exact hcomm

/-- Settles O13: the reset values as written, and the strap's frame under reset. -/
theorem resetStateIsZero : Obligations.ResetStateIsZero := by
  unfold Obligations.ResetStateIsZero
  exact ⟨rfl, rfl, rfl, rfl, rfl, rfl, rfl, rfl, rfl, State.takeReset_hostLe⟩

end

