-- ==== Sys2Proof/Proofs/Frame.lean ====
section
/-! SUPPORT. Each instruction's frame: whose registers and stream it may change, and that a DEC step is hidden from ENC (R58, R60). -/

namespace Sys2Proof.Machine

/-- From `s` to `t` only ENC's registers may differ, and `ENC_OUT` by what was appended to it. -/
structure ChangesOnlyEnc (s t : State) : Prop where
  dec : t.dec = s.dec
  decOut : t.decOut = s.decOut
  hostLe : t.hostLe = s.hostLe
  posw : t.posw = s.posw
  input : t.input = s.input
  encOut : ∃ es, t.encOut = s.encOut ++ es

/-- From `s` to `t` only DEC's registers may differ, and `DEC_OUT` by what was appended to it. -/
structure ChangesOnlyDec (s t : State) : Prop where
  enc : t.enc = s.enc
  encOut : t.encOut = s.encOut
  hostLe : t.hostLe = s.hostLe
  posw : t.posw = s.posw
  input : t.input = s.input
  decOut : ∃ ds, t.decOut = s.decOut ++ ds

theorem State.encByte_changesOnlyEnc (b : Byte) (s : State) : ChangesOnlyEnc s (s.encByte b) :=
  ⟨rfl, rfl, rfl, rfl, rfl, _, s.encByte_encOut b⟩

theorem State.encEnd_changesOnlyEnc (s : State) : ChangesOnlyEnc s s.encEnd :=
  ⟨rfl, rfl, rfl, rfl, rfl, _, s.encEnd_encOut⟩

theorem State.encEndp_changesOnlyEnc (s : State) : ChangesOnlyEnc s s.encEndp :=
  ⟨rfl, rfl, rfl, rfl, rfl, _, s.encEndp_encOut⟩

theorem State.umxId_changesOnlyEnc (id : Ident) (s : State) : ChangesOnlyEnc s (s.umxId id) := by
  obtain ⟨-, hdec, hdecOut, hle, hposw, hinput⟩ := s.umxId_frame id
  exact ⟨hdec, hdecOut, hle, hposw, hinput, s.umxId_encOut id⟩

/-- DEC.CHAR only appends to `DEC_OUT`: a byte or none, or the report of its raise. -/
theorem State.decChar_decOut (c : Code) (s : State) : ∃ ds, (s.decChar c).decOut = s.decOut ++ ds := by
  obtain ⟨-, h⟩ | ⟨v, -, -, -, h⟩ | ⟨-, -, h⟩ | ⟨-, -, -, h⟩ | ⟨-, -, -, h⟩ := s.decChar_cases c
  · exact ⟨[], by simp [h]⟩
  · exact ⟨s.dec.symBytes v, by simp [h]⟩
  · exact ⟨[], by simp [h]⟩
  · exact ⟨[.err c s.dec.dPos], by simp [h]⟩
  · exact ⟨[.err padCode s.dec.dPadpos], by simp [h]⟩

theorem State.decChar_changesOnlyDec (c : Code) (s : State) : ChangesOnlyDec s (s.decChar c) := by
  obtain ⟨henc, hencOut, hle, hposw, hinput⟩ := s.decChar_frame c
  exact ⟨henc, hencOut, hle, hposw, hinput, s.decChar_decOut c⟩

theorem State.closeDec_changesOnlyDec (s : State) : ChangesOnlyDec s s.closeDec :=
  ⟨rfl, rfl, rfl, rfl, rfl, _, s.closeDec_decOut⟩

/-- An instruction that completes is of one side only and changes that side only (R20, R58). -/
theorem exec_changes_one_side {i : Instr} {s t : State} (h : exec i s = .next t) :
    (onEncSide i = true ∧ onDecSide i = false ∧ ChangesOnlyEnc s t) ∨
    (onEncSide i = false ∧ onDecSide i = true ∧ ChangesOnlyDec s t) := by
  obtain ⟨b, rfl, -, rfl⟩ | ⟨p, rfl, -, rfl⟩ | ⟨p, rfl, -, rfl⟩ | ⟨c, rfl, -, rfl⟩ | ⟨p, rfl, -, rfl⟩ | ⟨id, rfl, -, rfl⟩ :=
    exec_next_cases h
  · exact .inl ⟨rfl, rfl, s.encByte_changesOnlyEnc b⟩
  · exact .inl ⟨rfl, rfl, s.encEnd_changesOnlyEnc⟩
  · exact .inl ⟨rfl, rfl, s.encEndp_changesOnlyEnc⟩
  · exact .inr ⟨rfl, rfl, s.decChar_changesOnlyDec c⟩
  · exact .inr ⟨rfl, rfl, s.closeDec_changesOnlyDec⟩
  · exact .inl ⟨rfl, rfl, s.umxId_changesOnlyEnc id⟩

/-- ENC's side changes ENC's side only. -/
theorem exec_changesOnlyEnc {i : Instr} {s t : State} (hi : onEncSide i = true) (h : exec i s = .next t) : ChangesOnlyEnc s t := by
  obtain ⟨-, -, ht⟩ | ⟨hne, -, -⟩ := exec_changes_one_side h
  · exact ht
  · simp [hi] at hne

/-- DEC's side changes DEC's side only. -/
theorem exec_changesOnlyDec {i : Instr} {s t : State} (hi : onDecSide i = true) (h : exec i s = .next t) : ChangesOnlyDec s t := by
  obtain ⟨-, hne, -⟩ | ⟨-, -, ht⟩ := exec_changes_one_side h
  · simp [hi] at hne
  · exact ht

/-- ENC's registers are hidden from DEC. -/
theorem setEnc_hiddenFromDec (r : EncRegs) : HiddenFromDec (State.setEnc r) :=
  ⟨fun _ => rfl, fun _ => rfl, fun _ _ => rfl, fun _ _ => rfl⟩

/-- ENC's stream is hidden from DEC. -/
theorem emitEnc_hiddenFromDec (ts : List EncOut) : HiddenFromDec (State.emitEnc ts) :=
  ⟨fun _ => rfl, fun _ => rfl, fun _ _ => rfl, fun _ _ => rfl⟩

/-- DEC.CHAR is hidden from ENC, as both of ENC's writes are hidden from DEC.CHAR. -/
theorem decChar_hiddenFromEnc (c : Code) : HiddenFromEnc (State.decChar c) where
  enc s := (s.decChar_changesOnlyDec c).enc
  setEnc r s := ((setEnc_hiddenFromDec r).decChar c s).symm
  emitEnc ts s := ((emitEnc_hiddenFromDec ts).decChar c s).symm

/-- DEC.END's close is hidden from ENC, as both of ENC's writes are hidden from it. -/
theorem closeDec_hiddenFromEnc : HiddenFromEnc State.closeDec where
  enc := State.closeDec_enc
  setEnc r s := ((setEnc_hiddenFromDec r).closeDec s).symm
  emitEnc ts s := ((emitEnc_hiddenFromDec ts).closeDec s).symm

/-- A change hidden from ENC that keeps the strap is hidden from every instruction of ENC's side. -/
theorem exec_hidden_of_onEncSide {g : State → State} (hg : HiddenFromEnc g) (hle : ∀ s, (g s).hostLe = s.hostLe) {i : Instr}
    (hi : onEncSide i = true) (s : State) : exec i (g s) = mapNext g (exec i s) := by
  cases i with
  | encByte b => exact hg.onEnc (hg.encByte b) s
  | encEnd p => exact hg.onEnc hg.encEnd s
  | encEndp p => exact hg.onEnc hg.encEndp s
  | encReserved p => cases hi
  | decChar c => cases hi
  | decEnd p => cases hi
  | umxId id => exact hg.onEnc (hg.umxId hle id) s

/-- An instruction of DEC's side is one guarded DEC step, which is hidden from ENC and keeps the strap. -/
theorem exec_eq_onDec_of_onDecSide {j : Instr} (hj : onDecSide j = true) :
    ∃ f : State → State, HiddenFromEnc f ∧ (∀ s, (f s).hostLe = s.hostLe) ∧ ∀ s, exec j s = s.onDec f := by
  cases j with
  | decChar c => exact ⟨State.decChar c, decChar_hiddenFromEnc c, fun s => (s.decChar_changesOnlyDec c).hostLe, fun _ => rfl⟩
  | decEnd p => exact ⟨State.closeDec, closeDec_hiddenFromEnc, State.closeDec_hostLe, fun _ => rfl⟩
  | encByte b => cases hj
  | encEnd p => cases hj
  | encEndp p => cases hj
  | encReserved p => cases hj
  | umxId id => cases hj

/-- An instruction that completes extends one of the two streams at most (R57, R61). -/
theorem exec_streams_grow {i : Instr} {s t : State} (h : exec i s = .next t) :
    ∃ (es : List EncOut) (ds : List DecOut), t.encOut = s.encOut ++ es ∧ t.decOut = s.decOut ++ ds ∧ (es = [] ∨ ds = []) := by
  obtain ⟨-, -, ht⟩ | ⟨-, -, ht⟩ := exec_changes_one_side h
  · obtain ⟨es, hes⟩ := ht.encOut
    exact ⟨es, [], hes, by simp [ht.decOut], .inr rfl⟩
  · obtain ⟨ds, hds⟩ := ht.decOut
    exact ⟨[], ds, by simp [ht.encOut], hds, .inl rfl⟩

end Sys2Proof.Machine
end

