-- ==== Sys2Proof/Proofs/Memory.lean ====
section
/-! The settled statements of 20_memory.md. -/

open Sys2Proof Sys2Proof.Machine

/-- Settles O52: a DEC step `f` is hidden from ENC, so the ENC step after it gives `f a`; and DEC's guard reads in `a` what it read
in `s`, so the DEC step after the ENC step gives `f a` too. -/
theorem encAndDecStepsCommute : Obligations.EncAndDecStepsCommute := by
  unfold Obligations.EncAndDecStepsCommute
  intro i j s a b hi hj hia hjb
  obtain ⟨f, hf, hle, hexec⟩ := exec_eq_onDec_of_onDecSide hj
  rw [hexec, State.onDec_next_iff] at hjb
  obtain ⟨hlegal, rfl⟩ := hjb
  have ha := exec_changesOnlyEnc hi hia
  have hlegal' : a.dec.legal a.posw = true := by rw [ha.dec, ha.posw, hlegal]
  refine ⟨f a, ?_, ?_⟩
  · rw [hexec, State.onDec_of_legal hlegal']
  · rw [exec_hidden_of_onEncSide hf hle hi, hia, mapNext_next]

/-- Settles O53: an instruction that completes changes its own side only. -/
theorem eachUnitLeavesTheOtherAlone : Obligations.EachUnitLeavesTheOtherAlone := by
  unfold Obligations.EachUnitLeavesTheOtherAlone
  intro i s t h
  refine ⟨fun hi => ?_, fun hi => ?_, ?_⟩
  · have ht := exec_changesOnlyEnc hi h
    exact ⟨ht.dec, ht.decOut⟩
  · have ht := exec_changesOnlyDec hi h
    exact ⟨ht.enc, ht.encOut⟩
  · obtain ⟨-, -, ht⟩ | ⟨-, -, ht⟩ := exec_changes_one_side h
    · exact ⟨ht.hostLe, ht.posw, ht.input⟩
    · exact ⟨ht.hostLe, ht.posw, ht.input⟩

/-- Settles O54: an instruction extends its own side's stream, and the other steps neither. -/
theorem streamsOnlyGrow : Obligations.StreamsOnlyGrow := by
  unfold Obligations.StreamsOnlyGrow
  intro s t h
  obtain ⟨-, rfl⟩ | ⟨w, rest, -, hex⟩ | ⟨cs, rest, -, rfl⟩ | ⟨b, rest, -, rfl⟩ := step_next_cases h
  · exact ⟨[], [], by simp, by simp, .inl rfl⟩
  · simpa only [State.dropAction_encOut, State.dropAction_decOut] using exec_streams_grow hex
  · exact ⟨[], [], by simp, by simp, .inl rfl⟩
  · exact ⟨[], [], by simp, by simp, .inl rfl⟩

end

