-- ==== Sys2Proof/Proofs/Words.lean ====
section
/-! SUPPORT. The words of the input ports: decoding by the kind field, the identifier's bytes on the bus, and that encoding and decoding
are each other's inverse (R54, R71 to R73, R79); the tables `ALPHA` and `REV` likewise (R76 to R78); the slices of a `DEC_OUT` word
(R74). -/

namespace Sys2Proof

/-! ## The kind fields -/

theorem encIn_kind_cases (k : BitVec 2) : k = 0#2 ∨ k = 1#2 ∨ k = 2#2 ∨ k = 3#2 := by
  revert k
  decide

theorem decIn_kind_cases (k : BitVec 1) : k = 0#1 ∨ k = 1#1 := by
  revert k
  decide

theorem decodeEncIn_of_kind_zero {w : BitVec 10} (h : w.extractLsb' 8 2 = 0#2) : decodeEncIn w = .encByte (w.extractLsb' 0 8) := by
  simp [decodeEncIn, h]

theorem decodeEncIn_of_kind_one {w : BitVec 10} (h : w.extractLsb' 8 2 = 1#2) : decodeEncIn w = .encEnd (w.extractLsb' 0 8) := by
  simp [decodeEncIn, h]

theorem decodeEncIn_of_kind_two {w : BitVec 10} (h : w.extractLsb' 8 2 = 2#2) : decodeEncIn w = .encEndp (w.extractLsb' 0 8) := by
  simp [decodeEncIn, h]

theorem decodeEncIn_of_kind_three {w : BitVec 10} (h : w.extractLsb' 8 2 = 3#2) :
    decodeEncIn w = .encReserved (w.extractLsb' 0 8) := by
  simp [decodeEncIn, h]

theorem decodeDecIn_of_kind_zero {w : BitVec 9} (h : w.extractLsb' 8 1 = 0#1) : decodeDecIn w = .decChar (w.extractLsb' 0 8) := by
  simp [decodeDecIn, h]

theorem decodeDecIn_of_kind_one {w : BitVec 9} (h : w.extractLsb' 8 1 = 1#1) : decodeDecIn w = .decEnd (w.extractLsb' 0 8) := by
  simp [decodeDecIn, h]

/-- A word of `ENC_IN` is its kind over its payload (R71). -/
theorem encIn_word_eq (w : BitVec 10) : w.extractLsb' 8 2 ++ w.extractLsb' 0 8 = w :=
  (BitVec.extractLsb'_append_extractLsb'_eq_extractLsb' rfl).trans BitVec.extractLsb'_eq_self

/-- A word of `DEC_IN` is its kind over its payload (R72). -/
theorem decIn_word_eq (w : BitVec 9) : w.extractLsb' 8 1 ++ w.extractLsb' 0 8 = w :=
  (BitVec.extractLsb'_append_extractLsb'_eq_extractLsb' rfl).trans BitVec.extractLsb'_eq_self

/-! ## The identifier on the bus -/

/-- The number whose base 256 digits are the bytes, the first the most significant (R54). -/
def valueOfBytes (bs : List Byte) : Nat := bs.foldl (fun acc b => acc * 256 + b.toNat) 0

theorem wordOfIdent_eq (id : Ident) : wordOfIdent id = BitVec.ofNat 128 (valueOfBytes id.toList) := rfl

theorem valueOfBytes_append_singleton (bs : List Byte) (b : Byte) : valueOfBytes (bs ++ [b]) = valueOfBytes bs * 256 + b.toNat := by
  simp [valueOfBytes]

theorem valueOfBytes_lt (bs : List Byte) : valueOfBytes bs < 256 ^ bs.length := by
  induction bs using List.reverseRecOn with
  | nil => simp [valueOfBytes]
  | append_singleton bs b ih =>
    have hb : b.toNat < 256 := b.isLt
    rw [valueOfBytes_append_singleton, List.length_append, List.length_singleton, pow_succ]
    omega

/-- Digit `i` of the bytes' number is byte `i`, counted from the most significant. -/
theorem valueOfBytes_digit (bs : List Byte) {i : Nat} (h : i < bs.length) :
    valueOfBytes bs / 256 ^ (bs.length - 1 - i) % 256 = (bs[i]).toNat := by
  induction bs using List.reverseRecOn with
  | nil => simp at h
  | append_singleton bs b ih =>
    have hb : b.toNat < 256 := b.isLt
    rw [List.length_append, List.length_singleton] at h
    rw [valueOfBytes_append_singleton, List.length_append, List.length_singleton, Nat.add_sub_cancel]
    by_cases hi : i < bs.length
    · obtain ⟨k, hk⟩ : ∃ k, bs.length - i = k + 1 := ⟨bs.length - i - 1, by omega⟩
      have hk' : bs.length - 1 - i = k := by omega
      have hdiv : (valueOfBytes bs * 256 + b.toNat) / 256 = valueOfBytes bs := by omega
      rw [List.getElem_append_left hi, ← ih hi, hk, hk', pow_succ', ← Nat.div_div_eq_div_mul, hdiv]
    · obtain rfl : i = bs.length := by omega
      simp
      omega

/-- The byte of an identifier is the byte of its word (R54, R73). -/
theorem identByte_wordOfIdent (id : Ident) (i : Fin 16) : identByte (wordOfIdent id) i = id[i] := by
  have hlen : id.toList.length = 16 := id.length_toList
  have hlt : valueOfBytes id.toList < 2 ^ 128 := by simpa [hlen] using valueOfBytes_lt id.toList
  have hdigit := valueOfBytes_digit id.toList (i := i) (by omega)
  have hpow : 2 ^ (120 - 8 * i.val) = 256 ^ (id.toList.length - 1 - i) := by
    rw [hlen, show 256 = 2 ^ 8 from rfl, ← pow_mul]
    congr 1
    omega
  apply BitVec.eq_of_toNat_eq
  rw [identByte, wordOfIdent_eq, BitVec.extractLsb'_toNat, BitVec.toNat_ofNat, Nat.mod_eq_of_lt hlt, Nat.shiftRight_eq_div_pow,
    hpow, show 2 ^ 8 = 256 from rfl, hdigit]
  simp

theorem identOfWord_wordOfIdent (id : Ident) : identOfWord (wordOfIdent id) = id := by
  apply Vector.ext
  intro i hi
  simpa [identOfWord] using identByte_wordOfIdent id ⟨i, hi⟩

/-- A word of the bus is determined by its sixteen bytes: bit `j` is bit `j % 8` of byte `15 - j / 8`. -/
theorem eq_of_identByte_eq {v w : BitVec 128} (h : ∀ i : Fin 16, identByte v i = identByte w i) : v = w := by
  apply BitVec.eq_of_getLsbD_eq
  intro j hj
  have hpos : 120 - 8 * (15 - j / 8) + j % 8 = j := by omega
  have hbit := congrArg (fun b : Byte => b.getLsbD (j % 8)) (h ⟨15 - j / 8, by omega⟩)
  simpa [identByte, hpos, Nat.mod_lt] using hbit

theorem wordOfIdent_identOfWord (w : BitVec 128) : wordOfIdent (identOfWord w) = w := by
  apply eq_of_identByte_eq
  intro i
  simp [identByte_wordOfIdent, identOfWord]

/-! ## Round trips -/

/-- Decoding undoes encoding (R71 to R73). -/
@[simp] theorem decode_encode (i : Instr) : decode (encode i) = i := by
  have hkind {n : Nat} (k : BitVec n) (p : Byte) : (k ++ p).extractLsb' 8 n = k := BitVec.extractLsb'_append_eq_left
  have hpayload {n : Nat} (k : BitVec n) (p : Byte) : (k ++ p).extractLsb' 0 8 = p := BitVec.extractLsb'_append_eq_right
  cases i with
  | encByte b => exact (decodeEncIn_of_kind_zero (hkind 0#2 b)).trans (congrArg _ (hpayload 0#2 b))
  | encEnd p => exact (decodeEncIn_of_kind_one (hkind 1#2 p)).trans (congrArg _ (hpayload 1#2 p))
  | encEndp p => exact (decodeEncIn_of_kind_two (hkind 2#2 p)).trans (congrArg _ (hpayload 2#2 p))
  | encReserved p => exact (decodeEncIn_of_kind_three (hkind 3#2 p)).trans (congrArg _ (hpayload 3#2 p))
  | decChar c => exact (decodeDecIn_of_kind_zero (hkind 0#1 c)).trans (congrArg _ (hpayload 0#1 c))
  | decEnd p => exact (decodeDecIn_of_kind_one (hkind 1#1 p)).trans (congrArg _ (hpayload 1#1 p))
  | umxId id => exact congrArg Instr.umxId (identOfWord_wordOfIdent id)

theorem encode_decodeEncIn (w : BitVec 10) : encode (decodeEncIn w) = .encIn w := by
  have hw := encIn_word_eq w
  obtain h | h | h | h := encIn_kind_cases (w.extractLsb' 8 2)
  · rw [decodeEncIn_of_kind_zero h, encode, ← h, hw]
  · rw [decodeEncIn_of_kind_one h, encode, ← h, hw]
  · rw [decodeEncIn_of_kind_two h, encode, ← h, hw]
  · rw [decodeEncIn_of_kind_three h, encode, ← h, hw]

theorem encode_decodeDecIn (w : BitVec 9) : encode (decodeDecIn w) = .decIn w := by
  have hw := decIn_word_eq w
  obtain h | h := decIn_kind_cases (w.extractLsb' 8 1)
  · rw [decodeDecIn_of_kind_zero h, encode, ← h, hw]
  · rw [decodeDecIn_of_kind_one h, encode, ← h, hw]

/-- Encoding undoes decoding (R71 to R73; log 9 for the ignored payloads). -/
theorem encode_decode (w : PortWord) : encode (decode w) = w := by
  cases w with
  | encIn w => exact encode_decodeEncIn w
  | decIn w => exact encode_decodeDecIn w
  | umxIn w => exact congrArg PortWord.umxIn (wordOfIdent_identOfWord w)

/-! ## The opcode map -/

/-- The row of an instruction's mnemonic covers its encoding (R79). -/
theorem encodedWord (i : Instr) : Laws.EncodedWord.Statement i := by
  cases i with
  | encByte b => exact Laws.EncodedWord.encByte b
  | encEnd p => exact Laws.EncodedWord.encEnd p
  | encEndp p => exact Laws.EncodedWord.encEndp p
  | encReserved p => exact Laws.EncodedWord.encReserved p
  | decChar c => exact Laws.EncodedWord.decChar c
  | decEnd p => exact Laws.EncodedWord.decEnd p
  | umxId id => exact Laws.EncodedWord.umxId id

theorem OpcodeRow.covers_iff (r : OpcodeRow) (w : PortWord) :
    r.covers w = true ↔ r.port = w.port ∧ w.value &&& r.mask = r.matchBits := by
  simp [OpcodeRow.covers]

/-- The rows of one port share their mask, so they differ in their match bits (R79). -/
theorem opcodeTable_rows_of_port :
    ∀ r ∈ opcodeTable, ∀ r' ∈ opcodeTable, r'.port = r.port → r'.mask = r.mask ∧ (r'.matchBits = r.matchBits → r' = r) := by
  decide

theorem OpcodeRow.eq_of_covers {r r' : OpcodeRow} (hr : r ∈ opcodeTable) (hr' : r' ∈ opcodeTable) {w : PortWord}
    (h : r.covers w = true) (h' : r'.covers w = true) : r' = r := by
  obtain ⟨hport, hbits⟩ := (r.covers_iff w).1 h
  obtain ⟨hport', hbits'⟩ := (r'.covers_iff w).1 h'
  obtain ⟨hmask, heq⟩ := opcodeTable_rows_of_port r hr r' hr' (hport'.trans hport.symm)
  exact heq (by rw [← hbits', hmask, hbits])

/-! ## The reserved kind -/

/-- The kind of a word of `ENC_IN` is 3 from 0x300 on (R71). -/
theorem encIn_kind_eq_three_iff (w : BitVec 10) : w.extractLsb' 8 2 = 3#2 ↔ 0x300 ≤ w.toNat := by
  have hw := w.isLt
  rw [← BitVec.toNat_inj, BitVec.extractLsb'_toNat, Nat.shiftRight_eq_div_pow]
  simp
  omega

/-- The words of `ENC_IN` from 0x300 on decode to the reserved kind, and no other word of any port does (R82). -/
theorem decode_wellFormed_eq_false_iff (w : PortWord) :
    (decode w).wellFormed = false ↔ ∃ v : BitVec 10, w = .encIn v ∧ 0x300 ≤ v.toNat := by
  cases w with
  | encIn w =>
    have hkind : (decodeEncIn w).wellFormed = false ↔ w.extractLsb' 8 2 = 3#2 := by
      obtain h | h | h | h := encIn_kind_cases (w.extractLsb' 8 2)
      · simp [decodeEncIn_of_kind_zero h, h, Instr.wellFormed]
      · simp [decodeEncIn_of_kind_one h, h, Instr.wellFormed]
      · simp [decodeEncIn_of_kind_two h, h, Instr.wellFormed]
      · simp [decodeEncIn_of_kind_three h, h, Instr.wellFormed]
    simpa [decode, encIn_kind_eq_three_iff] using hkind
  | decIn w =>
    have hlegal : (decodeDecIn w).wellFormed = true := by
      obtain h | h := decIn_kind_cases (w.extractLsb' 8 1)
      · rw [decodeDecIn_of_kind_zero h, Instr.wellFormed]
      · rw [decodeDecIn_of_kind_one h, Instr.wellFormed]
    simp [decode, hlegal]
  | umxIn w => simp [decode, Instr.wellFormed]

end Sys2Proof

namespace Sys2Proof.Machine

/-- `REV` undoes `ALPHA` (R78). -/
@[simp] theorem rev_alpha : ∀ v : Group, rev (alpha v) = .sym v := by decide

/-! The class of a code by its range: two ranges of letters, the digits, or a code that is neither of these nor `'='` (R78). -/

theorem rev_of_upper : ∀ c : Code, 0x41 ≤ c.toNat ∧ c.toNat ≤ 0x5A → rev c = .sym (BitVec.ofNat 5 (c.toNat - 0x41)) := by decide

theorem rev_of_lower : ∀ c : Code, 0x61 ≤ c.toNat ∧ c.toNat ≤ 0x7A → rev c = .sym (BitVec.ofNat 5 (c.toNat - 0x61)) := by decide

theorem rev_of_digit : ∀ c : Code, 0x32 ≤ c.toNat ∧ c.toNat ≤ 0x37 → rev c = .sym (BitVec.ofNat 5 (c.toNat - 0x32 + 26)) := by
  decide

theorem rev_of_foreign : ∀ c : Code, c.toNat ≤ 0x31 ∨ (0x38 ≤ c.toNat ∧ c.toNat ≤ 0x3C) ∨ (0x3E ≤ c.toNat ∧ c.toNat ≤ 0x40) ∨
    (0x5B ≤ c.toNat ∧ c.toNat ≤ 0x60) ∨ 0x7B ≤ c.toNat → rev c = .inv := by decide

/-- `ALPHA` gives back the normalised code of a symbol (R77, R78). -/
theorem alpha_of_rev_eq_sym : ∀ (c : Code) (v : Group), rev c = .sym v → alpha v = caseNorm c := by decide

/-- The kind, the data and the position of a `DEC_OUT` word are the parts it is put together from (R74). -/
theorem decOutFields {posw : Nat} (kind : BitVec 2) (data : BitVec 8) (pos : BitVec posw) :
    (kind ++ data ++ pos).extractLsb' (posw + 8) 2 = kind ∧ (kind ++ data ++ pos).extractLsb' posw 8 = data ∧
      (kind ++ data ++ pos).extractLsb' 0 posw = pos := by
  refine ⟨?_, ?_, BitVec.extractLsb'_append_eq_right⟩
  · rw [BitVec.extractLsb'_append_eq_of_le (by omega), Nat.add_sub_cancel_left]
    exact BitVec.extractLsb'_append_eq_left
  · rw [BitVec.extractLsb'_append_eq_of_le (by omega), Nat.sub_self]
    exact BitVec.extractLsb'_append_eq_right

end Sys2Proof.Machine
end

