-- ==== Sys2Proof/Proofs/Outputs.lean ====
section
/-! SUPPORT. The tokens every step appends are tokens their ports may carry (R74, R108, R170), and what a step from legal registers
answers (R82, R109). -/

namespace Sys2Proof.Machine

/-! ## What the invariant gives -/

theorem State.enc_legal_of_inv {s : State} (h : s.inv = true) : s.enc.legal = true := by
  simp only [State.inv, Bool.and_eq_true] at h
  exact h.1.1.2

theorem State.dec_legal_of_inv {s : State} (h : s.inv = true) : s.dec.legal s.posw = true := by
  simp only [State.inv, Bool.and_eq_true] at h
  exact h.2

/-! ## Tokens -/

theorem emittedCode_alpha : ∀ v : Group, emittedCode (alpha v) = true := by decide

/-- Characters that stand for groups are of the alphabet (R76, R108). -/
theorem charsOf_tokensOk (gs : List Group) : (charsOf gs).all encTokenOk = true := by
  simp [charsOf, encTokenOk, emittedCode_alpha]

theorem EncRegs.padding_tokensOk (r : EncRegs) : r.padding.all encTokenOk = true := by
  simp [EncRegs.padding, encTokenOk, show emittedCode padCode = true from rfl]

theorem DecRegs.symBytes_tokensOk (posw : Nat) (r : DecRegs) (v : Group) : (r.symBytes v).all (decTokenOk posw) = true := by
  unfold DecRegs.symBytes
  dsimp only
  split <;> rfl

/-! ## Steps -/

/-- Streams stay within their ports' tokens when what is appended to them does. -/
theorem State.outputsOk_of_append {s t : State} {es : List EncOut} {ds : List DecOut} (h : s.outputsOk = true)
    (hposw : t.posw = s.posw) (henc : t.encOut = s.encOut ++ es) (hdec : t.decOut = s.decOut ++ ds)
    (hes : es.all encTokenOk = true) (hds : ds.all (decTokenOk s.posw) = true) : t.outputsOk = true := by
  simp only [State.outputsOk, Bool.and_eq_true] at h ⊢
  rw [henc, hdec, hposw, List.all_append, List.all_append, h.1, h.2, hes, hds]
  exact ⟨rfl, rfl⟩

/-- An ENC step that appends tokens its port may carry. -/
theorem State.outputsOk_of_encOut {s t : State} {es : List EncOut} (h : s.outputsOk = true) (ht : ChangesOnlyEnc s t)
    (henc : t.encOut = s.encOut ++ es) (hes : es.all encTokenOk = true) : t.outputsOk = true :=
  State.outputsOk_of_append (ds := []) h ht.posw henc (by rw [ht.decOut, List.append_nil]) hes rfl

/-- A DEC step that appends tokens its port may carry. -/
theorem State.outputsOk_of_decOut {s t : State} {ds : List DecOut} (h : s.outputsOk = true) (ht : ChangesOnlyDec s t)
    (hdec : t.decOut = s.decOut ++ ds) (hds : ds.all (decTokenOk s.posw) = true) : t.outputsOk = true :=
  State.outputsOk_of_append (es := []) h ht.posw (by rw [ht.encOut, List.append_nil]) hdec rfl hds

theorem State.encByte_outputsOk {s : State} (h : s.outputsOk = true) (b : Byte) : (s.encByte b).outputsOk = true :=
  State.outputsOk_of_encOut h (s.encByte_changesOnlyEnc b) (s.encByte_encOut b) (charsOf_tokensOk _)

theorem State.encBytes_outputsOk {s : State} (h : s.outputsOk = true) (bs : List Byte) : (s.encBytes bs).outputsOk = true := by
  induction bs generalizing s with
  | nil => exact h
  | cons b bs ih => exact ih (State.encByte_outputsOk h b)

theorem State.encEnd_outputsOk {s : State} (h : s.outputsOk = true) : s.encEnd.outputsOk = true := by
  refine State.outputsOk_of_encOut h s.encEnd_changesOnlyEnc s.encEnd_encOut ?_
  rw [List.all_append, charsOf_tokensOk]
  rfl

theorem State.encEndp_outputsOk {s : State} (h : s.outputsOk = true) : s.encEndp.outputsOk = true := by
  refine State.outputsOk_of_encOut h s.encEndp_changesOnlyEnc s.encEndp_encOut ?_
  rw [List.all_append, List.all_append, charsOf_tokensOk, EncRegs.padding_tokensOk]
  rfl

theorem State.umxId_outputsOk {s : State} (h : s.outputsOk = true) (id : Ident) : (s.umxId id).outputsOk = true :=
  State.encEnd_outputsOk (State.encBytes_outputsOk h _)

/-- DEC.CHAR reports positions that legal registers hold, and characters that are no symbol (R127, R128, R170). -/
theorem State.decChar_outputsOk {s : State} (h : s.outputsOk = true) (hl : s.dec.legal s.posw = true) (c : Code) :
    (s.decChar c).outputsOk = true := by
  obtain ⟨-, hpos, hpadpos⟩ := (DecRegs.legal_iff s.posw s.dec).1 hl
  have ht := s.decChar_changesOnlyDec c
  obtain ⟨-, hc⟩ | ⟨v, -, -, -, hc⟩ | ⟨-, -, hc⟩ | ⟨-, -, hrev, hc⟩ | ⟨-, -, -, hc⟩ := s.decChar_cases c <;> rw [hc] at ht ⊢
  · exact h
  · exact State.outputsOk_of_decOut h ht (s.decSymbol_decOut v) (s.dec.symBytes_tokensOk s.posw v)
  · exact State.outputsOk_of_decOut h ht (List.append_nil s.decOut).symm rfl
  · exact State.outputsOk_of_decOut h ht (s.raiseInvalidSymbol_decOut c s.dec.dPos) (by simp [decTokenOk, hpos, hrev])
  · refine State.outputsOk_of_decOut h ht (State.raiseInvalidSymbol_decOut padCode s.dec.dPadpos s) ?_
    simp [decTokenOk, hpadpos, show rev padCode = .pad from rfl]

theorem State.closeDec_outputsOk {s : State} (h : s.outputsOk = true) : s.closeDec.outputsOk = true :=
  State.outputsOk_of_decOut h s.closeDec_changesOnlyDec s.closeDec_decOut rfl

/-- An instruction that completes appends tokens their ports may carry. -/
theorem exec_outputsOk {i : Instr} {s t : State} (h : s.outputsOk = true) (hex : exec i s = .next t) : t.outputsOk = true := by
  obtain ⟨b, -, -, rfl⟩ | ⟨p, -, -, rfl⟩ | ⟨p, -, -, rfl⟩ | ⟨c, -, hl, rfl⟩ | ⟨p, -, -, rfl⟩ | ⟨id, -, -, rfl⟩ :=
    exec_next_cases hex
  · exact State.encByte_outputsOk h b
  · exact State.encEnd_outputsOk h
  · exact State.encEndp_outputsOk h
  · exact State.decChar_outputsOk h hl c
  · exact State.closeDec_outputsOk h
  · exact State.umxId_outputsOk h id

/-! ## What stops an instruction -/

/-- On legal registers every instruction completes but the reserved one, which is refused (R82, R109). -/
theorem exec_of_legal {s : State} (henc : s.enc.legal = true) (hdec : s.dec.legal s.posw = true) (i : Instr) :
    (∃ t, exec i s = .next t) ∨ (i.wellFormed = false ∧ exec i s = .refused .reservedToken) := by
  cases i with
  | encByte b => exact .inl ⟨_, State.onEnc_of_legal henc _⟩
  | encEnd p => exact .inl ⟨_, State.onEnc_of_legal henc _⟩
  | encEndp p => exact .inl ⟨_, State.onEnc_of_legal henc _⟩
  | encReserved p => exact .inr ⟨rfl, rfl⟩
  | decChar c => exact .inl ⟨_, State.onDec_of_legal hdec _⟩
  | decEnd p => exact .inl ⟨_, State.onDec_of_legal hdec _⟩
  | umxId id => exact .inl ⟨_, State.onEnc_of_legal henc _⟩

/-- With no action pending the state is held (R185). -/
theorem step_of_input_nil {s : State} (h : s.input = []) : step s = .next s := by
  simp [step, h, State.idle]

/-- A strap setting that is the next action is taken (R29, R85). -/
theorem step_of_input_strap {s : State} {b : Bool} {rest : List HostAction} (h : s.input = .strap b :: rest) :
    step s = .next (s.dropAction.setStrap b) := by
  simp [step, h]

end Sys2Proof.Machine
end

