-- ==== Sys2Proof/Proofs/Messages.lean ====
section
/-! SUPPORT. The message-level functions. A bitstream cut into chunks of `w` bits and the bits left over: how both grow when bits are
appended (R51, R100, R120). `Decode` by the shape of its string: symbols and a run of `'='`, or what breaks that (R120 to R122). -/

namespace Sys2Proof.Codec

/-! ## Values -/

theorem valueOfBits_append_singleton (l : List Bool) (b : Bool) : valueOfBits (l ++ [b]) = 2 * valueOfBits l + b.toNat := by
  simp [valueOfBits]

theorem valueOfBits_append (l m : List Bool) : valueOfBits (l ++ m) = valueOfBits l * 2 ^ m.length + valueOfBits m := by
  induction m using List.reverseRecOn with
  | nil => simp [valueOfBits]
  | append_singleton m b ih =>
    rw [← List.append_assoc, valueOfBits_append_singleton, valueOfBits_append_singleton, ih, List.length_append,
      List.length_singleton, pow_succ]
    ring

theorem valueOfBits_lt (l : List Bool) : valueOfBits l < 2 ^ l.length := by
  induction l using List.reverseRecOn with
  | nil => simp [valueOfBits]
  | append_singleton l b ih =>
    have hb : b.toNat < 2 := b.toNat_lt
    rw [valueOfBits_append_singleton, List.length_append, List.length_singleton, pow_succ]
    omega

@[simp] theorem valueOfBits_replicate_false (k : Nat) : valueOfBits (List.replicate k false) = 0 := by
  induction k with
  | zero => rfl
  | succ k ih => rw [List.replicate_succ', valueOfBits_append_singleton, ih]; rfl

/-- The first `n` bits are the value without its low bits. -/
theorem valueOfBits_take (l : List Bool) (n : Nat) :
    valueOfBits (l.take n) = valueOfBits l / 2 ^ (l.length - n) := by
  have hlt := valueOfBits_lt (l.drop n)
  have happend := valueOfBits_append (l.take n) (l.drop n)
  rw [List.take_append_drop, List.length_drop] at happend
  rw [List.length_drop] at hlt
  rw [happend, Nat.mul_comm, Nat.mul_add_div (Nat.two_pow_pos _), Nat.div_eq_of_lt hlt, Nat.add_zero]

/-- The bits from `n` on are the low bits of the value. -/
theorem valueOfBits_drop (l : List Bool) (n : Nat) :
    valueOfBits (l.drop n) = valueOfBits l % 2 ^ (l.length - n) := by
  have hlt := valueOfBits_lt (l.drop n)
  have happend := valueOfBits_append (l.take n) (l.drop n)
  rw [List.take_append_drop, List.length_drop] at happend
  rw [List.length_drop] at hlt
  rw [happend, Nat.mul_comm, Nat.mul_add_mod, Nat.mod_eq_of_lt hlt]

/-- The last bit of a word is its least significant one. -/
theorem bitsMsbFirst_succ {n : Nat} (v : BitVec (n + 1)) : bitsMsbFirst v = bitsMsbFirst (v.extractLsb' 1 n) ++ [v.getLsbD 0] := by
  have hinit : ∀ i ∈ List.range n, v.getMsbD i = (v.extractLsb' 1 n).getMsbD i := by
    intro i hi
    have hi : i < n := List.mem_range.1 hi
    simp only [BitVec.getMsbD, BitVec.getLsbD_extractLsb']
    rw [show n + 1 - 1 - i = 1 + (n - 1 - i) by omega]
    simp [hi, show i < n + 1 by omega, show n - 1 - i < n by omega]
  rw [bitsMsbFirst, List.range_succ, List.map_append, List.map_congr_left hinit, bitsMsbFirst]
  simp [BitVec.getMsbD]

/-- The bits of a word, most significant first, are its value (R51). -/
@[simp] theorem valueOfBits_bitsMsbFirst {n : Nat} (v : BitVec n) : valueOfBits (bitsMsbFirst v) = v.toNat := by
  induction n with
  | zero => simp [bitsMsbFirst, valueOfBits, BitVec.eq_nil v]
  | succ n ih =>
    have hlow : (v.getLsbD 0).toNat = v.toNat % 2 := by
      rw [BitVec.getLsbD, Nat.toNat_testBit, pow_zero, Nat.div_one]
    have hhigh : (v.extractLsb' 1 n).toNat = v.toNat / 2 := by
      have hv := v.isLt
      rw [BitVec.extractLsb'_toNat, Nat.shiftRight_eq_div_pow, pow_one, Nat.mod_eq_of_lt (by rw [pow_succ] at hv; omega)]
    rw [bitsMsbFirst_succ, valueOfBits_append_singleton, ih, hhigh, hlow, Nat.div_add_mod]

/-! ## Chunks -/

/-- The whole chunks of `w` bits of a bitstream, earliest first. -/
def chunks (w : Nat) (z : List Bool) : List (BitVec w) := (List.range (z.length / w)).map (chunkAt w z)

/-- The bits after the last whole chunk: what a unit holds back. -/
def leftover (w : Nat) (z : List Bool) : List Bool := z.drop (w * (z.length / w))

@[simp] theorem chunks_length (w : Nat) (z : List Bool) : (chunks w z).length = z.length / w := by simp [chunks]

@[simp] theorem leftover_length (w : Nat) (z : List Bool) : (leftover w z).length = z.length % w := by
  rw [leftover, List.length_drop, Nat.mod_eq_sub_mul_div]

theorem chunks_of_length_lt {w : Nat} {z : List Bool} (h : z.length < w) : chunks w z = [] := by
  simp [chunks, Nat.div_eq_of_lt h]

theorem leftover_of_length_lt {w : Nat} {z : List Bool} (h : z.length < w) : leftover w z = z := by
  simp [leftover, Nat.div_eq_of_lt h]

theorem chunkAt_append_left {w i : Nat} {z : List Bool} (h : w * (i + 1) ≤ z.length) (y : List Bool) :
    chunkAt w (z ++ y) i = chunkAt w z i := by
  rw [Nat.mul_succ] at h
  rw [chunkAt, chunkAt, List.drop_append_of_le_length (by omega), List.take_append_of_le_length (by rw [List.length_drop]; omega)]

theorem chunkAt_add (w : Nat) (z : List Bool) (j i : Nat) : chunkAt w z (j + i) = chunkAt w (z.drop (w * j)) i := by
  rw [chunkAt, chunkAt, List.drop_drop, Nat.mul_add]

theorem drop_append_chunks (w : Nat) (z y : List Bool) : (z ++ y).drop (w * (z.length / w)) = leftover w z ++ y :=
  List.drop_append_of_le_length (Nat.mul_div_le z.length w)

section Append

variable {w : Nat} (hw : 0 < w) (z y : List Bool)
include hw

theorem length_append_div : (z ++ y).length / w = z.length / w + (leftover w z ++ y).length / w := by
  rw [List.length_append, List.length_append, leftover_length]
  calc (z.length + y.length) / w
      = (z.length % w + y.length + w * (z.length / w)) / w := by rw [Nat.add_right_comm, Nat.mod_add_div]
    _ = z.length / w + (z.length % w + y.length) / w := by rw [Nat.add_mul_div_left _ _ hw, Nat.add_comm]

/-- Appended bits complete the chunk that was left over, and those after it. -/
theorem chunks_append : chunks w (z ++ y) = chunks w z ++ chunks w (leftover w z ++ y) := by
  have hleft : ∀ i ∈ List.range (z.length / w), chunkAt w (z ++ y) i = chunkAt w z i := fun i hi =>
    chunkAt_append_left ((Nat.mul_le_mul_left w (List.mem_range.1 hi)).trans (Nat.mul_div_le z.length w)) y
  rw [chunks, length_append_div hw, List.range_add, List.map_append, List.map_congr_left hleft, List.map_map, chunks, chunks,
    ← drop_append_chunks w z y]
  congr 1
  exact List.map_congr_left fun i _ => chunkAt_add w (z ++ y) (z.length / w) i

theorem leftover_append : leftover w (z ++ y) = leftover w (leftover w z ++ y) := by
  rw [leftover, length_append_div hw, Nat.mul_add, ← List.drop_drop, drop_append_chunks]
  rfl

end Append

/-- A chunk as a slice of the number the bitstream stands for. -/
theorem chunkAt_eq_extractLsb' {w i m : Nat} {z : List Bool} {v : BitVec m} (hv : v.toNat = valueOfBits z)
    (h : w * (i + 1) ≤ z.length) : chunkAt w z i = v.extractLsb' (z.length - w * (i + 1)) w := by
  have hi : w * (i + 1) = w * i + w := Nat.mul_succ w i
  have hlen : (z.drop (w * i)).length = z.length - w * i := List.length_drop
  apply BitVec.eq_of_toNat_eq
  rw [chunkAt, BitVec.toNat_ofNat, BitVec.extractLsb'_toNat, hv, Nat.shiftRight_eq_div_pow, valueOfBits_take,
    valueOfBits_drop, hlen, show z.length - w * i - w = z.length - w * (i + 1) by omega,
    show z.length - w * i = z.length - w * (i + 1) + w by omega, pow_add, Nat.mod_mul_right_div_self, Nat.mod_mod]

/-- The value left over is the low bits of the number the bitstream stands for. -/
theorem valueOfBits_leftover (w : Nat) (z : List Bool) : valueOfBits (leftover w z) = valueOfBits z % 2 ^ (z.length % w) := by
  rw [leftover, valueOfBits_drop, ← Nat.mod_eq_sub_mul_div]

/-! ## The message-level functions by chunks -/

theorem assemble_eq (gs : List Group) : assemble gs = chunks 8 (groupsToBits gs) := by
  simp [assemble, chunks]

/-- The groups of a byte sequence: its whole chunks, then the bits left over filled with zero bits (R100). -/
theorem encodeGroups_eq (bs : List Byte) :
    encodeGroups bs = chunks 5 (bytesToBits bs) ++
      chunks 5 (leftover 5 (bytesToBits bs) ++ List.replicate ((5 - 8 * bs.length % 5) % 5) false) := by
  have hfill : 5 * symbolCount bs.length - 8 * bs.length = (5 - 8 * bs.length % 5) % 5 := by
    unfold symbolCount
    omega
  have hcount : (8 * bs.length + (5 - 8 * bs.length % 5) % 5) / 5 = symbolCount bs.length := by
    unfold symbolCount
    omega
  rw [← chunks_append (by decide), encodeGroups, hfill, chunks]
  simp [hcount]

open Sys2Proof.Machine

/-! ## The shapes of a string -/

/-- The characters are symbols, with these values (R78). -/
def Spells (xs : List Code) (vs : List Group) : Prop := List.Forall₂ (fun c v => rev c = .sym v) xs vs

/-- The three shapes of a string: symbols and then only `'='`; a foreign character after symbols; a run of `'='` that something else
follows. -/
inductive MessageShape : List Code → Prop where
  | whole {xs : List Code} {vs : List Group} (k : Nat) (h : Spells xs vs) : MessageShape (xs ++ List.replicate k padCode)
  | foreign {xs : List Code} {vs : List Group} {c : Code} (rest : List Code) (h : Spells xs vs) (hc : rev c = .inv) :
    MessageShape (xs ++ c :: rest)
  | brokenRun {xs : List Code} {vs : List Group} {c : Code} (k : Nat) (rest : List Code) (h : Spells xs vs) (hc : rev c ≠ .pad) :
    MessageShape (xs ++ (List.replicate (k + 1) padCode ++ c :: rest))

/-- A string is a run of `'='`, or one that another character follows. -/
theorem leading_pads (cs : List Code) :
    (∃ k, cs = List.replicate k padCode) ∨ ∃ k c rest, c ≠ padCode ∧ cs = List.replicate k padCode ++ c :: rest := by
  induction cs with
  | nil => exact .inl ⟨0, rfl⟩
  | cons d cs ih =>
    by_cases hd : d = padCode
    · obtain ⟨k, rfl⟩ | ⟨k, c, rest, hc, rfl⟩ := ih
      · exact .inl ⟨k + 1, by rw [hd, List.replicate_succ]⟩
      · exact .inr ⟨k + 1, c, rest, hc, by rw [hd, List.replicate_succ, List.cons_append]⟩
    · exact .inr ⟨0, d, cs, hd, rfl⟩

/-- Every string has a shape. -/
theorem messageShape (cs : List Code) : MessageShape cs := by
  induction cs with
  | nil => exact .whole (xs := []) 0 .nil
  | cons d cs ih =>
    cases hd : rev d with
    | sym v =>
      cases ih with
      | whole k h => exact .whole (xs := d :: _) k (.cons hd h)
      | foreign rest h hc => exact .foreign (xs := d :: _) rest (.cons hd h) hc
      | brokenRun k rest h hc => exact .brokenRun (xs := d :: _) k rest (.cons hd h) hc
    | pad =>
      obtain rfl : d = padCode := (rev_eq_pad_iff d).1 hd
      obtain ⟨k, rfl⟩ | ⟨k, c, rest, hc, rfl⟩ := leading_pads cs
      · exact .whole (xs := []) (k + 1) .nil
      · exact .brokenRun (xs := []) k rest .nil fun hpad => hc ((rev_eq_pad_iff c).1 hpad)
    | inv => exact .foreign (xs := []) cs .nil hd

/-! ## The strip -/

theorem strip_append_pads (cs : List Code) (k : Nat) : strip (cs ++ List.replicate k padCode) = strip cs := by
  induction k with
  | zero => simp
  | succ k ih => rw [List.replicate_succ', ← List.append_assoc, strip_append_pad, ih]

/-- The strip stops at the latest at a character that is not `'='`. -/
theorem strip_append_cons (cs : List Code) {c : Code} (h : c ≠ padCode) (rest : List Code) :
    ∃ rest', strip (cs ++ c :: rest) = cs ++ c :: rest' := by
  induction rest using List.reverseRecOn with
  | nil => exact ⟨[], strip_append_singleton_of_ne cs h⟩
  | append_singleton rest d ih =>
    have hassoc : cs ++ c :: (rest ++ [d]) = (cs ++ c :: rest) ++ [d] := by simp
    rw [hassoc]
    by_cases hd : d = padCode
    · rw [hd, strip_append_pad]
      exact ih
    · exact ⟨rest ++ [d], by rw [strip_append_singleton_of_ne _ hd, hassoc]⟩

section Spells

variable {xs : List Code} {vs : List Group} (h : Spells xs vs)
include h

theorem Spells.exists_of_mem {c : Code} (hc : c ∈ xs) : ∃ v, rev c = .sym v := by
  induction h with
  | nil => simp at hc
  | cons hd _ ih =>
    obtain rfl | hc := List.mem_cons.1 hc
    · exact ⟨_, hd⟩
    · exact ih hc

theorem Spells.strip : strip xs = xs := by
  obtain rfl | ⟨init, c, rfl⟩ := List.eq_nil_or_concat' xs
  · rfl
  · obtain ⟨v, hv⟩ := h.exists_of_mem (c := c) (by simp)
    exact strip_append_singleton_of_ne init fun hpad => by simp [(rev_eq_pad_iff c).2 hpad] at hv

/-! ## The symbol values -/

theorem Spells.mapSymbols (i : Nat) : mapSymbols i xs = .ok vs := by
  induction h generalizing i with
  | nil => rfl
  | cons hc _ ih => simp [Codec.mapSymbols, hc, ih]

/-- The first character that is no symbol is the one reported. -/
theorem Spells.mapSymbols_error {c : Code} (hc : ∀ v, rev c ≠ .sym v) (i : Nat) (rest : List Code) :
    Codec.mapSymbols i (xs ++ c :: rest) = .error (c, i + xs.length) := by
  induction h generalizing i with
  | nil =>
    cases hrev : rev c with
    | sym v => exact absurd hrev (hc v)
    | pad => simp [Codec.mapSymbols, hrev]
    | inv => simp [Codec.mapSymbols, hrev]
  | cons hd _ ih => simp [Codec.mapSymbols, hd, ih, Nat.add_assoc, Nat.add_comm 1]

/-! ## `Decode` of the three shapes -/

theorem decode_whole (k : Nat) : decode (xs ++ List.replicate k padCode) = .bytes (assemble vs) := by
  rw [decode, strip_append_pads, h.strip, h.mapSymbols]

theorem decode_of_spells : decode xs = .bytes (assemble vs) := by
  simpa using decode_whole h 0

theorem decode_foreign {c : Code} (hc : rev c = .inv) (rest : List Code) :
    decode (xs ++ c :: rest) = .invalidSymbol c xs.length := by
  have hpad : c ≠ padCode := fun hpad => by simp [(rev_eq_pad_iff c).2 hpad] at hc
  obtain ⟨rest', hstrip⟩ := strip_append_cons xs hpad rest
  rw [decode, hstrip, h.mapSymbols_error (by simp [hc]), Nat.zero_add]

/-- The run's first `'='` is reported (R122). -/
theorem decode_brokenRun {c : Code} (hc : rev c ≠ .pad) (k : Nat) (rest : List Code) :
    decode (xs ++ (List.replicate (k + 1) padCode ++ c :: rest)) = .invalidSymbol padCode xs.length := by
  have hpad : c ≠ padCode := fun hpad => hc ((rev_eq_pad_iff c).2 hpad)
  obtain ⟨rest', hstrip⟩ := strip_append_cons (xs ++ List.replicate (k + 1) padCode) hpad rest
  have hfirst : (xs ++ List.replicate (k + 1) padCode) ++ c :: rest' =
      xs ++ padCode :: (List.replicate k padCode ++ c :: rest') := by
    simp [List.replicate_succ]
  rw [decode, ← List.append_assoc, hstrip, hfirst, h.mapSymbols_error (by decide), Nat.zero_add]

/-! ## The tokens of the three shapes -/

theorem decodeTokens_whole (posw k : Nat) :
    decodeTokens posw (xs ++ List.replicate k padCode) = (assemble vs).map .byte ++ [.eom false] := by
  rw [decodeTokens, decode_whole h]

theorem decodeTokens_foreign {c : Code} (hc : rev c = .inv) (posw : Nat) (rest : List Code) :
    decodeTokens posw (xs ++ c :: rest) = (assemble vs).map .byte ++ [.err c (xs.length % 2 ^ posw), .eom true] := by
  simp [decodeTokens, decode_foreign h hc, decode_of_spells h]

theorem decodeTokens_brokenRun {c : Code} (hc : rev c ≠ .pad) (posw k : Nat) (rest : List Code) :
    decodeTokens posw (xs ++ (List.replicate (k + 1) padCode ++ c :: rest)) =
      (assemble vs).map .byte ++ [.err padCode (xs.length % 2 ^ posw), .eom true] := by
  simp [decodeTokens, decode_brokenRun h hc, decode_of_spells h]

end Spells

end Sys2Proof.Codec
end

