-- ==== Sys2Proof/Proofs/EncRefine.lean ====
section
/-! SUPPORT. The encoder's steps against the bitstream of the message: which bits ENC holds back, and that a message's steps emit
`Encode` of its bytes (R100, R102, R104, R106, R110). -/

namespace Sys2Proof.Machine

open Sys2Proof.Codec

/-- ENC's residue is the bits `z`: their number and their value (R21, R22). -/
structure EncRegs.Holds (r : EncRegs) (z : List Bool) : Prop where
  eN : r.eN.val = z.length
  eAcc : r.eAcc.toNat = valueOfBits z

theorem EncRegs.reset_holds : EncRegs.reset.Holds [] := ⟨rfl, rfl⟩

/-- The residue after a byte is the window's low bits (R102). -/
theorem EncRegs.afterByte_eAcc (r : EncRegs) (b : Byte) :
    (r.afterByte b).eAcc.toNat = (r.window b).toNat % 2 ^ (r.afterByte b).eN.val := by
  unfold EncRegs.afterByte
  split
  · exact lowBits_toNat _ (by omega)
  · exact lowBits_toNat _ (by omega)

/-- `e_sym8` counts the groups emitted (R102). -/
theorem EncRegs.afterByte_eSym8_val (r : EncRegs) (b : Byte) :
    (r.afterByte b).eSym8.val = (r.eSym8.val + (r.byteGroups b).length) % 8 := by
  rw [EncRegs.afterByte_eSym8, EncRegs.byteGroups_length]
  split
  · exact Fin.val_add _ _
  · exact Fin.val_add _ _

section Holds

variable {r : EncRegs} {z : List Bool} (h : r.Holds z)
include h

theorem EncRegs.Holds.length_lt : z.length < 5 := h.eN ▸ r.eN.isLt

theorem EncRegs.Holds.length_window (b : Byte) : (z ++ bitsMsbFirst b).length = r.eN.val + 8 := by
  rw [List.length_append, bitsMsbFirst_length, h.eN]

/-- The window is the bits held and the byte's bits (R102). -/
theorem EncRegs.Holds.window (b : Byte) : (r.window b).toNat = valueOfBits (z ++ bitsMsbFirst b) := by
  rw [EncRegs.window_toNat, h.eAcc, valueOfBits_append, valueOfBits_bitsMsbFirst, bitsMsbFirst_length,
    show 2 ^ 8 = 256 from rfl]

/-- A byte completes the whole chunks of the bits held and its own (R102). -/
theorem EncRegs.Holds.byteGroups (b : Byte) : r.byteGroups b = chunks 5 (z ++ bitsMsbFirst b) := by
  have hlen := h.length_window b
  have hn := r.eN.isLt
  have hchunk {i : Nat} (hi : 5 * (i + 1) ≤ r.eN.val + 8) :
      chunkAt 5 (z ++ bitsMsbFirst b) i = (r.window b).extractLsb' (r.eN.val + 8 - 5 * (i + 1)) 5 := by
    rw [chunkAt_eq_extractLsb' (h.window b) (by omega), hlen]
  unfold EncRegs.byteGroups
  by_cases ht : r.eN.val + 8 ≥ 10
  · have hcount : (r.eN.val + 8) / 5 = 2 := by omega
    simp [chunks, hlen, hcount, ht, List.range_succ, hchunk (i := 0) (by omega), hchunk (i := 1) (by omega)]
  · have hcount : (r.eN.val + 8) / 5 = 1 := by omega
    simp [chunks, hlen, hcount, ht, hchunk (i := 0) (by omega)]

/-- ENC then holds what those chunks leave over (R102). -/
theorem EncRegs.Holds.afterByte (b : Byte) : (r.afterByte b).Holds (leftover 5 (z ++ bitsMsbFirst b)) := by
  have hcount : (r.afterByte b).eN.val = (z ++ bitsMsbFirst b).length % 5 := by
    have hn := r.eN.isLt
    rw [h.length_window b, EncRegs.afterByte_eN]
    split <;> omega
  exact ⟨by rw [hcount, leftover_length], by rw [EncRegs.afterByte_eAcc, h.window, hcount, valueOfBits_leftover]⟩

/-- The flush is the chunk of the bits held and the zero bits that fill it, if any are held (R104). -/
theorem EncRegs.Holds.flushGroups : r.flushGroups = chunks 5 (z ++ List.replicate ((5 - z.length) % 5) false) := by
  have hlt := h.length_lt
  unfold EncRegs.flushGroups
  by_cases hz : z.length = 0
  · simp [h.eN, List.eq_nil_of_length_eq_zero hz, chunks]
  · have hfill : (5 - z.length) % 5 = 5 - z.length := Nat.mod_eq_of_lt (by omega)
    have hlen : (z ++ List.replicate (5 - z.length) false).length = 5 := by simp; omega
    have hvalue : (r.eAcc.setWidth 5 <<< (5 - z.length)).toNat = valueOfBits (z ++ List.replicate (5 - z.length) false) := by
      have hfull := valueOfBits_lt (z ++ List.replicate (5 - z.length) false)
      have hpart := valueOfBits_lt z
      rw [hlen, valueOfBits_append, valueOfBits_replicate_false, List.length_replicate, Nat.add_zero] at *
      have hsmall : valueOfBits z < 2 ^ 5 := hpart.trans (Nat.pow_lt_pow_right (by decide) hlt)
      rw [BitVec.toNat_shiftLeft, BitVec.toNat_setWidth, h.eAcc, Nat.mod_eq_of_lt hsmall, Nat.shiftLeft_eq, Nat.mod_eq_of_lt hfull]
    have hchunk : chunkAt 5 (z ++ List.replicate (5 - z.length) false) 0 = r.eAcc.setWidth 5 <<< (5 - z.length) := by
      rw [chunkAt_eq_extractLsb' hvalue (by rw [hlen]), hlen]
      exact BitVec.extractLsb'_eq_self
    rw [hfill, h.eN, if_pos (by omega), chunks, hlen]
    simp [hchunk]

end Holds

/-- What a run of bytes emits, which bits it leaves in ENC, and what it adds to the symbol count. -/
theorem State.encBytes_holds {s : State} {z : List Bool} (h : s.enc.Holds z) (bs : List Byte) :
    (s.encBytes bs).encOut = s.encOut ++ charsOf (chunks 5 (z ++ bytesToBits bs)) ∧
      (s.encBytes bs).enc.Holds (leftover 5 (z ++ bytesToBits bs)) ∧
      (s.encBytes bs).enc.eSym8.val = (s.enc.eSym8.val + (chunks 5 (z ++ bytesToBits bs)).length) % 8 := by
  induction bs generalizing s z with
  | nil =>
    have hz : z ++ bytesToBits [] = z := List.append_nil z
    rw [hz, chunks_of_length_lt h.length_lt, leftover_of_length_lt h.length_lt]
    exact ⟨(List.append_nil _).symm, h, (Nat.mod_eq_of_lt s.enc.eSym8.isLt).symm⟩
  | cons b bs ih =>
    obtain ⟨hout, hholds, hsym⟩ := ih (s := s.encByte b) (h.afterByte b)
    have hbits : z ++ bytesToBits (b :: bs) = (z ++ bitsMsbFirst b) ++ bytesToBits bs := (List.append_assoc _ _ _).symm
    rw [hbits, chunks_append (by decide), leftover_append (by decide) (z ++ bitsMsbFirst b), State.encBytes_cons]
    refine ⟨?_, hholds, ?_⟩
    · rw [hout, State.encByte_encOut, h.byteGroups, charsOf, charsOf, charsOf, List.map_append, List.append_assoc]
    · rw [hsym, State.encByte_enc, EncRegs.afterByte_eSym8_val, h.byteGroups, List.length_append]
      omega

section Message

variable {s : State} (h : s.enc = EncRegs.reset) (bs : List Byte)
include h

theorem State.encBytes_of_reset :
    (s.encBytes bs).encOut = s.encOut ++ charsOf (chunks 5 (bytesToBits bs)) ∧
      (s.encBytes bs).enc.Holds (leftover 5 (bytesToBits bs)) ∧
      (s.encBytes bs).enc.eSym8.val = (chunks 5 (bytesToBits bs)).length % 8 := by
  have hholds : s.enc.Holds [] := h ▸ EncRegs.reset_holds
  simpa [h, EncRegs.reset] using State.encBytes_holds hholds bs

/-- The message's groups are those its bytes complete and the flushed one (R100, R104). -/
theorem State.encodeGroups_eq_flush :
    encodeGroups bs = chunks 5 (bytesToBits bs) ++ (s.encBytes bs).enc.flushGroups := by
  obtain ⟨-, hholds, -⟩ := State.encBytes_of_reset h bs
  rw [encodeGroups_eq, hholds.flushGroups, leftover_length, bytesToBits_length]

/-- The pads of the close are those `Encode` asks for (R100, R106, R107). -/
theorem State.padding_of_message :
    (s.encBytes bs).enc.padding = List.replicate ((8 - (encodeGroups bs).length % 8) % 8) (.char padCode) := by
  obtain ⟨-, -, hsym⟩ := State.encBytes_of_reset h bs
  have hcount : (if (s.encBytes bs).enc.eN.val > 0 then (s.encBytes bs).enc.eSym8 + 1 else (s.encBytes bs).enc.eSym8).val =
      (encodeGroups bs).length % 8 := by
    rw [State.encodeGroups_eq_flush h bs, List.length_append, EncRegs.flushGroups_length]
    split
    · rw [Fin.val_add, hsym]
      exact Nat.mod_add_mod _ _ _
    · exact hsym
  rw [EncRegs.padding, padCount, hcount]

end Message

/-- A change of ENC that ends in its reset registers is one of `ENC_OUT` alone. -/
theorem ChangesOnlyEnc.eq_of_enc_eq {s t : State} (h : ChangesOnlyEnc s t) (henc : t.enc = s.enc) {es : List EncOut}
    (hes : t.encOut = s.encOut ++ es) : t = { s with encOut := s.encOut ++ es } := by
  obtain ⟨hdec, hdecOut, hle, hposw, hinput, -⟩ := h
  cases s
  cases t
  simp_all

theorem State.encBytes_changesOnlyEnc (bs : List Byte) (s : State) : ChangesOnlyEnc s (s.encBytes bs) := by
  obtain ⟨hdec, hdecOut, hle, hposw, hinput⟩ := s.encBytes_frame bs
  exact ⟨hdec, hdecOut, hle, hposw, hinput, s.encBytes_encOut bs⟩

theorem ChangesOnlyEnc.trans {s t u : State} (hst : ChangesOnlyEnc s t) (htu : ChangesOnlyEnc t u) : ChangesOnlyEnc s u := by
  obtain ⟨es, hes⟩ := hst.encOut
  obtain ⟨es', hes'⟩ := htu.encOut
  exact ⟨htu.dec.trans hst.dec, htu.decOut.trans hst.decOut, htu.hostLe.trans hst.hostLe, htu.posw.trans hst.posw,
    htu.input.trans hst.input, es ++ es', by rw [hes', hes, List.append_assoc]⟩

theorem encodeTokens_eq (bs : List Byte) (padded : Bool) :
    encodeTokens bs padded = charsOf (encodeGroups bs) ++
      (if padded then List.replicate ((8 - (encodeGroups bs).length % 8) % 8) (.char padCode) else []) ++ [.eom] := by
  cases padded
  · simp [encodeTokens, Codec.encode, charsOf]
  · simp [encodeTokens, Codec.encode, charsOf]

/-- An unpadded message from ENC's reset state emits `Encode` of its bytes and EOM (R110). -/
theorem State.encBytes_encEnd {s : State} (h : s.enc = EncRegs.reset) (bs : List Byte) :
    (s.encBytes bs).encEnd = { s with encOut := s.encOut ++ encodeTokens bs false } := by
  obtain ⟨hout, -, -⟩ := State.encBytes_of_reset h bs
  refine ((s.encBytes_changesOnlyEnc bs).trans (State.encEnd_changesOnlyEnc _)).eq_of_enc_eq h.symm ?_
  rw [State.encEnd_encOut, hout, encodeTokens_eq, State.encodeGroups_eq_flush h bs]
  simp [charsOf]

/-- A padded message from ENC's reset state emits the padded `Encode` of its bytes and EOM (R110). -/
theorem State.encBytes_encEndp {s : State} (h : s.enc = EncRegs.reset) (bs : List Byte) :
    (s.encBytes bs).encEndp = { s with encOut := s.encOut ++ encodeTokens bs true } := by
  obtain ⟨hout, -, -⟩ := State.encBytes_of_reset h bs
  refine ((s.encBytes_changesOnlyEnc bs).trans (State.encEndp_changesOnlyEnc _)).eq_of_enc_eq h.symm ?_
  rw [State.encEndp_encOut, hout, encodeTokens_eq, State.padding_of_message h bs, State.encodeGroups_eq_flush h bs]
  simp [charsOf]

/-- The steps of an unpadded message (R110). -/
theorem execAll_encode_unpadded {s : State} (h : s.enc = EncRegs.reset) (bs : List Byte) (p : Byte) :
    execAll (bs.map .encByte ++ [.encEnd p]) s = .next { s with encOut := s.encOut ++ encodeTokens bs false } := by
  have hlegal : s.enc.legal = true := h ▸ EncRegs.reset_legal
  rw [execAll_append_of_next (execAll_encBytes hlegal bs), ← State.encBytes_encEnd h bs]
  exact execAll_cons_of_next (i := .encEnd p) (State.onEnc_of_legal (State.encBytes_legal hlegal bs) State.encEnd) []

/-- The steps of a padded message (R110). -/
theorem execAll_encode_padded {s : State} (h : s.enc = EncRegs.reset) (bs : List Byte) (p : Byte) :
    execAll (bs.map .encByte ++ [.encEndp p]) s = .next { s with encOut := s.encOut ++ encodeTokens bs true } := by
  have hlegal : s.enc.legal = true := h ▸ EncRegs.reset_legal
  rw [execAll_append_of_next (execAll_encBytes hlegal bs), ← State.encBytes_encEndp h bs]
  exact execAll_cons_of_next (i := .encEndp p) (State.onEnc_of_legal (State.encBytes_legal hlegal bs) State.encEndp) []

/-- UMX.ID between messages is the unpadded message of the reordered bytes (R141, R143). -/
theorem exec_umxId_of_reset {s : State} (h : s.enc = EncRegs.reset) (id : Ident) :
    exec (.umxId id) s = .next { s with encOut := s.encOut ++ encodeTokens (reorder id s.hostLe).toList false } := by
  have hlegal : s.enc.legal = true := h ▸ EncRegs.reset_legal
  rw [← State.encBytes_encEnd h]
  exact State.onEnc_of_legal hlegal (State.umxId id)

end Sys2Proof.Machine
end

