-- ==== Sys2Proof/Proofs/DecRefine.lean ====
section
/-! SUPPORT. The decoder's steps against the bitstream of the message: which bits DEC holds back, and that a message's steps emit what
`Decode` of its characters demands (R120, R123 to R130, R132). -/

namespace Sys2Proof.Machine

open Sys2Proof.Codec

/-! ## DEC.CHAR, an equation per arm -/

section Arms

variable {c : Code} {s : State}

theorem State.decChar_of_error (herr : s.dec.dErr = true) : s.decChar c = s := by
  simp [State.decChar, DecRegs.mode, herr]

theorem State.decChar_of_pad (herr : s.dec.dErr = false) (hrev : rev c = .pad) : s.decChar c = s.decPad := by
  cases hpad : s.dec.dPad <;> simp [State.decChar, DecRegs.mode, herr, hpad, hrev]

theorem State.decChar_of_symbol (herr : s.dec.dErr = false) (hpad : s.dec.dPad = false) {v : Group} (hrev : rev c = .sym v) :
    s.decChar c = s.decSymbol v := by
  simp [State.decChar, DecRegs.mode, herr, hpad, hrev]

theorem State.decChar_of_foreign (herr : s.dec.dErr = false) (hpad : s.dec.dPad = false) (hrev : rev c = .inv) :
    s.decChar c = s.raiseInvalidSymbol c s.dec.dPos := by
  simp [State.decChar, DecRegs.mode, herr, hpad, hrev]

theorem State.decChar_of_brokenRun (herr : s.dec.dErr = false) (hpad : s.dec.dPad = true) (hrev : rev c ≠ .pad) :
    s.decChar c = s.raiseInvalidSymbol padCode s.dec.dPadpos := by
  cases hc : rev c with
  | sym v => simp [State.decChar, DecRegs.mode, herr, hpad, hc]
  | pad => exact absurd hc hrev
  | inv => simp [State.decChar, DecRegs.mode, herr, hpad, hc]

end Arms

/-! ## Runs of DEC.CHAR -/

/-- The steps DEC.CHAR on each character in order. -/
def State.decChars (cs : List Code) (s : State) : State := cs.foldl (fun t c => t.decChar c) s

@[simp] theorem State.decChars_nil (s : State) : s.decChars [] = s := rfl

@[simp] theorem State.decChars_cons (c : Code) (cs : List Code) (s : State) : s.decChars (c :: cs) = (s.decChar c).decChars cs := rfl

theorem State.decChars_append (cs ds : List Code) (s : State) : s.decChars (cs ++ ds) = (s.decChars cs).decChars ds := by
  simp [State.decChars, List.foldl_append]

theorem ChangesOnlyDec.refl (s : State) : ChangesOnlyDec s s := ⟨rfl, rfl, rfl, rfl, rfl, [], (List.append_nil _).symm⟩

theorem ChangesOnlyDec.trans {s t u : State} (hst : ChangesOnlyDec s t) (htu : ChangesOnlyDec t u) : ChangesOnlyDec s u := by
  obtain ⟨ds, hds⟩ := hst.decOut
  obtain ⟨ds', hds'⟩ := htu.decOut
  exact ⟨htu.enc.trans hst.enc, htu.encOut.trans hst.encOut, htu.hostLe.trans hst.hostLe, htu.posw.trans hst.posw,
    htu.input.trans hst.input, ds ++ ds', by rw [hds', hds, List.append_assoc]⟩

theorem State.decChars_changesOnlyDec (cs : List Code) (s : State) : ChangesOnlyDec s (s.decChars cs) := by
  induction cs generalizing s with
  | nil => exact .refl s
  | cons c cs ih => exact (s.decChar_changesOnlyDec c).trans (ih (s.decChar c))

/-- A change of DEC that ends in the registers it began with is one of `DEC_OUT` alone. -/
theorem ChangesOnlyDec.eq_of_dec_eq {s t : State} (h : ChangesOnlyDec s t) (hdec : t.dec = s.dec) {ds : List DecOut}
    (hds : t.decOut = s.decOut ++ ds) : t = { s with decOut := s.decOut ++ ds } := by
  obtain ⟨henc, hencOut, hle, hposw, hinput, -⟩ := h
  cases s
  cases t
  simp_all

/-- A run of DEC.CHAR on legal registers completes in the state the character steps give, its registers legal. -/
theorem execAll_decChars {s : State} (h : s.dec.legal s.posw = true) (cs : List Code) :
    execAll (cs.map .decChar) s = .next (s.decChars cs) ∧ (s.decChars cs).dec.legal (s.decChars cs).posw = true := by
  induction cs generalizing s with
  | nil => exact ⟨rfl, h⟩
  | cons c cs ih =>
    have hc : exec (.decChar c) s = .next (s.decChar c) := State.onDec_of_legal h _
    have hlegal : (s.decChar c).dec.legal (s.decChar c).posw = true := by
      rw [(s.decChar_changesOnlyDec c).posw]
      exact State.decChar_legal h c
    obtain ⟨hrun, hend⟩ := ih hlegal
    exact ⟨(execAll_cons_of_next hc _).trans hrun, hend⟩

/-! ## Symbols -/

/-- DEC in mode NORMAL after `n` characters, its residue the bits `z` (R24 to R26). -/
structure DecRegs.NormalAt (posw n : Nat) (z : List Bool) (r : DecRegs) : Prop where
  dErr : r.dErr = false
  dPad : r.dPad = false
  dPos : r.dPos = n % 2 ^ posw
  dN : r.dN.val = z.length
  dAcc : r.dAcc.toNat = valueOfBits z

theorem DecRegs.reset_normalAt (posw : Nat) : DecRegs.reset.NormalAt posw 0 [] := ⟨rfl, rfl, (Nat.zero_mod _).symm, rfl, rfl⟩

section Normal

variable {posw n : Nat} {z : List Bool} {r : DecRegs} (h : r.NormalAt posw n z)
include h

theorem DecRegs.NormalAt.length_lt : z.length < 8 := h.dN ▸ r.dN.isLt

theorem DecRegs.NormalAt.length_window (v : Group) : (z ++ bitsMsbFirst v).length = r.dN.val + 5 := by
  rw [List.length_append, bitsMsbFirst_length, h.dN]

/-- The window is the bits held and the symbol's bits (R124). -/
theorem DecRegs.NormalAt.window (v : Group) : (r.window v).toNat = valueOfBits (z ++ bitsMsbFirst v) := by
  rw [DecRegs.window_toNat, h.dAcc, valueOfBits_append, valueOfBits_bitsMsbFirst, bitsMsbFirst_length, show 2 ^ 5 = 32 from rfl]

/-- A symbol completes the whole byte, if there is one, of the bits held and its own (R124). -/
theorem DecRegs.NormalAt.symBytes (v : Group) : r.symBytes v = (chunks 8 (z ++ bitsMsbFirst v)).map .byte := by
  have hlen := h.length_window v
  have hn := r.dN.isLt
  unfold DecRegs.symBytes
  by_cases ht : r.dN.val + 5 ≥ 8
  · have hcount : (r.dN.val + 5) / 8 = 1 := by omega
    have hchunk : chunkAt 8 (z ++ bitsMsbFirst v) 0 = (r.window v).extractLsb' (r.dN.val + 5 - 8) 8 := by
      rw [chunkAt_eq_extractLsb' (h.window v) (by omega), hlen]
    simp only [ht, if_true, chunks, hlen, hcount]
    simp [hchunk]
  · have hshort : (z ++ bitsMsbFirst v).length < 8 := by omega
    simp [ht, chunks_of_length_lt hshort]

/-- DEC then holds what that leaves over, one character on (R124). -/
theorem DecRegs.NormalAt.afterSym (v : Group) :
    (r.afterSym posw v).NormalAt posw (n + 1) (leftover 8 (z ++ bitsMsbFirst v)) := by
  have hcount : r.nAfterSym.val = (z ++ bitsMsbFirst v).length % 8 := by
    have hn := r.dN.isLt
    rw [h.length_window v, DecRegs.nAfterSym_val]
    split <;> omega
  refine ⟨h.dErr, h.dPad, ?_, ?_, ?_⟩
  · show nextPos posw r.dPos = _
    rw [nextPos, h.dPos, Nat.mod_add_mod]
  · exact hcount.trans (leftover_length 8 _).symm
  · show (lowBits 7 (r.window v) r.nAfterSym.val).toNat = _
    rw [lowBits_toNat _ (by omega), h.window, hcount, valueOfBits_leftover]

end Normal

/-- What a run of symbols emits, and which bits it leaves in DEC. -/
theorem State.decChars_symbols {s : State} {n : Nat} {z : List Bool} (h : s.dec.NormalAt s.posw n z) {xs : List Code}
    {vs : List Group} (hxs : Spells xs vs) :
    (s.decChars xs).decOut = s.decOut ++ (chunks 8 (z ++ groupsToBits vs)).map .byte ∧
      (s.decChars xs).dec.NormalAt s.posw (n + xs.length) (leftover 8 (z ++ groupsToBits vs)) := by
  induction hxs generalizing s n z with
  | nil =>
    have hz : z ++ groupsToBits [] = z := List.append_nil z
    rw [hz, chunks_of_length_lt h.length_lt, leftover_of_length_lt h.length_lt]
    exact ⟨(List.append_nil _).symm, h⟩
  | @cons c v xs vs hc _ ih =>
    obtain ⟨hout, hnormal⟩ := ih (s := s.decSymbol v) (h.afterSym v)
    have hbits : z ++ groupsToBits (v :: vs) = (z ++ bitsMsbFirst v) ++ groupsToBits vs := (List.append_assoc _ _ _).symm
    rw [hbits, chunks_append (by decide), leftover_append (by decide) (z ++ bitsMsbFirst v), State.decChars_cons,
      State.decChar_of_symbol h.dErr h.dPad hc]
    refine ⟨?_, ?_⟩
    · rw [hout, State.decSymbol_decOut, h.symBytes, List.map_append, List.append_assoc]
    · rwa [List.length_cons, Nat.add_comm xs.length, ← Nat.add_assoc]

/-! ## Pads and errors -/

/-- A run of `'='` goes on: only the position moves (R126). -/
theorem State.decChars_pads_of_padRun {s : State} (herr : s.dec.dErr = false) (hpad : s.dec.dPad = true) (k : Nat) :
    (s.decChars (List.replicate k padCode)).decOut = s.decOut ∧ (s.decChars (List.replicate k padCode)).dec.dErr = false ∧
      (s.decChars (List.replicate k padCode)).dec.dPad = true ∧
      (s.decChars (List.replicate k padCode)).dec.dPadpos = s.dec.dPadpos := by
  induction k generalizing s with
  | zero => exact ⟨rfl, herr, hpad, rfl⟩
  | succ k ih =>
    have hkept : s.decPad.dec.dPadpos = s.dec.dPadpos := by simp [DecRegs.afterPad, hpad]
    rw [List.replicate_succ, State.decChars_cons, State.decChar_of_pad herr rfl, ← hkept]
    exact ih (s := s.decPad) herr rfl

/-- The first `'='` opens the run and is remembered (R126). -/
theorem State.decChars_pads_of_normal {s : State} (herr : s.dec.dErr = false) (hpad : s.dec.dPad = false) (k : Nat) :
    (s.decChars (List.replicate (k + 1) padCode)).decOut = s.decOut ∧
      (s.decChars (List.replicate (k + 1) padCode)).dec.dErr = false ∧
      (s.decChars (List.replicate (k + 1) padCode)).dec.dPad = true ∧
      (s.decChars (List.replicate (k + 1) padCode)).dec.dPadpos = s.dec.dPos := by
  have hopened : s.decPad.dec.dPadpos = s.dec.dPos := by simp [DecRegs.afterPad, hpad]
  rw [List.replicate_succ, State.decChars_cons, State.decChar_of_pad herr rfl, ← hopened]
  exact State.decChars_pads_of_padRun (s := s.decPad) herr rfl k

theorem State.decChars_of_error {s : State} (herr : s.dec.dErr = true) (cs : List Code) : s.decChars cs = s := by
  induction cs with
  | nil => rfl
  | cons c cs ih => rw [State.decChars_cons, State.decChar_of_error herr, ih]

/-! ## Messages -/

/-- A message from DEC's reset state emits what `Decode` of its characters demands (R132). -/
theorem State.decChars_emit_decodeTokens {s : State} (h : s.dec = DecRegs.reset) (cs : List Code) :
    (s.decChars cs).closeDec.decOut = s.decOut ++ decodeTokens s.posw cs := by
  have hstart : s.dec.NormalAt s.posw 0 [] := h ▸ DecRegs.reset_normalAt s.posw
  have hsymbols {xs : List Code} {vs : List Group} (hxs : Spells xs vs) :
      (s.decChars xs).decOut = s.decOut ++ (assemble vs).map .byte ∧
        ∃ z, (s.decChars xs).dec.NormalAt s.posw xs.length z := by
    obtain ⟨hout, hnormal⟩ := State.decChars_symbols hstart hxs
    rw [Nat.zero_add] at hnormal
    exact ⟨by rw [hout, assemble_eq, List.nil_append], _, hnormal⟩
  rw [State.closeDec_decOut]
  cases messageShape cs with
  | @whole xs vs k hxs =>
    obtain ⟨hout, z, hnormal⟩ := hsymbols hxs
    rw [decodeTokens_whole hxs, State.decChars_append]
    cases k with
    | zero => simp [hout, hnormal.dErr]
    | succ k =>
      obtain ⟨hpads, herr, -, -⟩ := State.decChars_pads_of_normal hnormal.dErr hnormal.dPad k
      rw [hpads, herr, hout, List.append_assoc]
  | @foreign xs vs c rest hxs hc =>
    obtain ⟨hout, z, hnormal⟩ := hsymbols hxs
    rw [decodeTokens_foreign hxs hc, State.decChars_append, State.decChars_cons,
      State.decChar_of_foreign hnormal.dErr hnormal.dPad hc, State.decChars_of_error rfl]
    simp [hout, hnormal.dPos]
  | @brokenRun xs vs c k rest hxs hc =>
    obtain ⟨hout, z, hnormal⟩ := hsymbols hxs
    obtain ⟨hpads, herr, hpad, hpadpos⟩ := State.decChars_pads_of_normal hnormal.dErr hnormal.dPad k
    rw [decodeTokens_brokenRun hxs hc, State.decChars_append, State.decChars_append, State.decChars_cons,
      State.decChar_of_brokenRun herr hpad hc, State.decChars_of_error rfl]
    simp [hpads, hpadpos, hout, hnormal.dPos]

/-- The steps of a message (R132). -/
theorem execAll_decode {s : State} (h : s.dec = DecRegs.reset) (cs : List Code) (p : Byte) :
    execAll (cs.map .decChar ++ [.decEnd p]) s = .next { s with decOut := s.decOut ++ decodeTokens s.posw cs } := by
  have hlegal : s.dec.legal s.posw = true := h ▸ DecRegs.reset_legal s.posw
  obtain ⟨hrun, hend⟩ := execAll_decChars hlegal cs
  have hchanges : ChangesOnlyDec s (s.decChars cs).closeDec :=
    (s.decChars_changesOnlyDec cs).trans (State.closeDec_changesOnlyDec _)
  rw [execAll_append_of_next hrun, ← hchanges.eq_of_dec_eq h.symm (State.decChars_emit_decodeTokens h cs)]
  exact execAll_cons_of_next (i := .decEnd p) (State.onDec_of_legal hend State.closeDec) []

end Sys2Proof.Machine
end

