-- ==== Sys2Proof/Proofs/Macros.lean ====
section
/-! SUPPORT. From the assembler's lines to instructions, and from the streams to results (R85, R86, R133). -/

namespace Sys2Proof.Machine

/-! ## Presented instructions -/

/-- `s` with other actions pending. -/
def State.withInput (as : List HostAction) (s : State) : State := { s with input := as }

/-- The pending actions are hidden from both units. -/
theorem withInput_hiddenFromEnc (as : List HostAction) : HiddenFromEnc (State.withInput as) :=
  ⟨fun _ => rfl, fun _ _ => rfl, fun _ _ => rfl⟩

theorem withInput_hiddenFromDec (as : List HostAction) : HiddenFromDec (State.withInput as) :=
  ⟨fun _ => rfl, fun _ => rfl, fun _ _ => rfl, fun _ _ => rfl⟩

theorem exec_withInput (as : List HostAction) (i : Instr) (s : State) :
    exec i (s.withInput as) = mapNext (State.withInput as) (exec i s) :=
  exec_hidden (withInput_hiddenFromEnc as) (withInput_hiddenFromDec as) (fun _ => rfl) i s

/-- The host presents an instruction by its word. -/
def presented (i : Instr) : HostAction := .token (encode i)

/-- A step on presented instructions executes the first (R7, R79). -/
theorem step_presented (i : Instr) (rest : List HostAction) (s : State) :
    step (s.withInput (presented i :: rest)) = mapNext (State.withInput rest) (exec i s) := by
  have hstep : step (s.withInput (presented i :: rest)) = exec (decode (encode i)) (s.withInput rest) := step_of_input_token rfl
  rw [hstep, decode_encode, exec_withInput]

/-- A run whose first step completes goes on from its next state. -/
theorem run_succ_of_step {s t : State} (h : step s = .next t) (k : Nat) :
    Host.Core.run Sys2Proof.core (k + 1) s = Host.Core.run Sys2Proof.core k t := by
  have hcore : Sys2Proof.core.step s = .next t := h
  simp [Host.Core.run, hcore]

/-- Taking all of the presented instructions executes them, if they complete. -/
theorem runInput_presented {is : List Instr} {s t : State} (h : execAll is s = .next t) :
    runInput (s.withInput (is.map presented)) = .next (t.withInput []) := by
  induction is generalizing s with
  | nil => cases h; rfl
  | cons i is ih =>
    obtain ⟨u, hu, hrun⟩ := (execAll_cons_next_iff i is s t).1 h
    have hstep : step (s.withInput ((i :: is).map presented)) = .next (u.withInput (is.map presented)) := by
      rw [List.map_cons, step_presented, hu, mapNext_next]
    exact (run_succ_of_step hstep _).trans (ih hrun)

/-! ## The macros' instructions -/

theorem macroEncode_assembled (bs : List Byte) (padded : Bool) :
    (macroEncode bs padded).map assembleLine =
      (bs.map Instr.encByte ++ [if padded then Instr.encEndp 0 else Instr.encEnd 0]).map presented := by
  cases padded <;> simp [macroEncode, assembleLine, presented, Function.comp_def]

theorem macroDecode_assembled (cs : List Code) :
    (macroDecode cs).map assembleLine = (cs.map Instr.decChar ++ [Instr.decEnd 0]).map presented := by
  simp [macroDecode, assembleLine, presented, Function.comp_def]

theorem macroId2b32_assembled (id : Ident) : (macroId2b32 id).map assembleLine = [Instr.umxId id].map presented := rfl

/-! ## Reading results -/

/-- The characters up to the EOM are the result (R86). -/
theorem encResult_chars (cs : List Code) : encResult (cs.map .char ++ [.eom]) = some cs := by
  induction cs with
  | nil => rfl
  | cons c cs ih => simp [encResult, ih]

theorem encResult_encodeTokens (bs : List Byte) (padded : Bool) : encResult (encodeTokens bs padded) = some (Codec.encode bs padded) :=
  encResult_chars _

theorem decMessage_bytes_append (d : List Byte) (ts : List DecOut) :
    decMessage (d.map .byte ++ ts) = (decMessage ts).map fun m => (d.map .byte ++ m.1, m.2) := by
  induction d with
  | nil => simp
  | cons b d ih => simp [decMessage, ih, Function.comp_def]

/-- Bytes and EOM(0) are the bytes (R133). -/
theorem decResult_bytes (d : List Byte) : decResult (d.map .byte ++ [.eom false]) = some (.bytes d) := by
  simp [decResult, decMessage_bytes_append, decMessage, byteTokens, List.filterMap_map]

/-- An ERR and EOM(1) are the failure, whatever bytes came before (R133, R180). -/
theorem decResult_err (d : List Byte) (c : Code) (p : Nat) :
    decResult (d.map .byte ++ [.err c p, .eom true]) = some (.invalidSymbol c p) := by
  have hbytes : List.findSome? (fun _ : Byte => (none : Option (Code × Nat))) d = none := List.findSome?_eq_none_iff.2 fun _ _ => rfl
  simp [decResult, decMessage_bytes_append, decMessage, errToken, List.findSome?_append, List.findSome?_map, Function.comp_def, hbytes]

/-- The reader gives `Decode` back from the tokens of a message short enough for its positions (R86, R132). -/
theorem decResult_decodeTokens {posw : Nat} {cs : List Code} (h : cs.length < 2 ^ posw) :
    decResult (decodeTokens posw cs) = some (Codec.decode cs) := by
  cases Codec.messageShape cs with
  | whole k hxs => rw [Codec.decodeTokens_whole hxs, Codec.decode_whole hxs, decResult_bytes]
  | @foreign xs vs c rest hxs hc =>
    have hpos : xs.length < 2 ^ posw := by
      rw [List.length_append] at h
      omega
    rw [Codec.decodeTokens_foreign hxs hc, Codec.decode_foreign hxs hc, decResult_err, Nat.mod_eq_of_lt hpos]
  | @brokenRun xs vs c k rest hxs hc =>
    have hpos : xs.length < 2 ^ posw := by
      rw [List.length_append] at h
      omega
    rw [Codec.decodeTokens_brokenRun hxs hc, Codec.decode_brokenRun hxs hc, decResult_err, Nat.mod_eq_of_lt hpos]

end Sys2Proof.Machine
end

