-- ==== Sys2Proof/Proofs/Encoding.lean ====
section
/-! The settled statements of 30_encoding.md. -/

open Sys2Proof Sys2Proof.Machine

/-- Settles O1: the kind field picks the constructor, and the operand is the payload or the bus's sixteen bytes. -/
theorem decodeOfEncodeIsTheInstruction : Obligations.DecodeOfEncodeIsTheInstruction := by
  unfold Obligations.DecodeOfEncodeIsTheInstruction
  exact decode_encode

/-- Settles O49: only an instruction appends tokens, and it appends tokens their ports may carry. -/
theorem stepKeepsTheOutputsOk : Obligations.StepKeepsTheOutputsOk := by
  unfold Obligations.StepKeepsTheOutputsOk
  refine ⟨rfl, ?_⟩
  intro s t _ hout hstep
  obtain ⟨-, rfl⟩ | ⟨w, rest, -, hex⟩ | ⟨cs, rest, -, rfl⟩ | ⟨b, rest, -, rfl⟩ := step_next_cases hstep
  · exact hout
  · exact exec_outputsOk (s := s.dropAction) hout hex
  · exact hout
  · exact hout

/-- Settles O4: a word is the encoding of its instruction, whose row covers it; rows of one port differ in their match bits under one
mask, so no other row does. -/
theorem oneOpcodeRowCoversEachWord : Obligations.OneOpcodeRowCoversEachWord := by
  unfold Obligations.OneOpcodeRowCoversEachWord
  intro w
  obtain ⟨-, r, hr, hmnemonic, hcovers⟩ := encodedWord (decode w)
  rw [encode_decode] at hcovers
  exact ⟨r, hr, hcovers, hmnemonic, fun r' hr' hcovers' => OpcodeRow.eq_of_covers hr hr' hcovers hcovers'⟩

/-- Settles O50: on legal registers an instruction completes unless it is the reserved one; the other actions always complete. -/
theorem onlyTheReservedTokenStops : Obligations.OnlyTheReservedTokenStops := by
  unfold Obligations.OnlyTheReservedTokenStops
  intro s hinv
  match hin : s.input with
  | [] => exact .inl ⟨_, step_of_input_nil hin⟩
  | .reset cs :: rest => exact .inl ⟨_, step_of_input_reset hin⟩
  | .strap b :: rest => exact .inl ⟨_, step_of_input_strap hin⟩
  | .token w :: rest =>
    rw [step_of_input_token hin]
    obtain hnext | ⟨hreserved, href⟩ :=
      exec_of_legal (s := { s with input := rest }) (State.enc_legal_of_inv hinv) (State.dec_legal_of_inv hinv) (decode w)
    · exact .inl hnext
    · obtain ⟨v, rfl, hv⟩ := (decode_wellFormed_eq_false_iff w).1 hreserved
      exact .inr ⟨href, v, rest, rfl, hv⟩

/-- Settles O60: the assembler's lines are presented instructions, which emit `Encode`'s and `Decode`'s tokens; the readers undo those. -/
theorem macroResultsAreTheSourceFunctions : Obligations.MacroResultsAreTheSourceFunctions := by
  unfold Obligations.MacroResultsAreTheSourceFunctions
  refine ⟨?_, ?_, ?_⟩
  · intro s bs padded henc
    refine ⟨encodeTokens bs padded, ?_, encResult_encodeTokens bs padded⟩
    rw [macroEncode_assembled]
    cases padded
    · exact runInput_presented (execAll_encode_unpadded henc bs 0)
    · exact runInput_presented (execAll_encode_padded henc bs 0)
  · intro s cs hdec hlen
    refine ⟨decodeTokens s.posw cs, ?_, decResult_decodeTokens hlen⟩
    rw [macroDecode_assembled]
    exact runInput_presented (execAll_decode hdec cs 0)
  · intro s id henc
    refine ⟨encodeTokens (reorder id s.hostLe).toList false, ?_, encResult_encodeTokens _ false⟩
    rw [macroId2b32_assembled]
    exact runInput_presented (execAll_cons_of_next (exec_umxId_of_reset henc id) [])

/-- Settles O5: the words from 0x300 on are the ones that decode to the reserved kind, whose meaning is the refusal. -/
theorem reservedKindIsRefused : Obligations.ReservedKindIsRefused := by
  unfold Obligations.ReservedKindIsRefused
  have href (p : Byte) (s : State) : exec (.encReserved p) s = .refused .reservedToken := rfl
  refine ⟨?_, href, decode_wellFormed_eq_false_iff⟩
  intro w s hw
  have hdec : decode (.encIn w) = .encReserved (w.extractLsb' 0 8) := decodeEncIn_of_kind_three ((encIn_kind_eq_three_iff w).2 hw)
  rw [step_present_token, hdec]
  exact ⟨href _ s, href _ s⟩

/-- Settles O6: no meaning of an end token reads its payload. -/
theorem endPayloadIsIgnored : Obligations.EndPayloadIsIgnored := by
  unfold Obligations.EndPayloadIsIgnored
  exact ⟨fun _ _ _ => ⟨rfl, rfl, rfl⟩, fun _ => ⟨rfl, rfl, rfl⟩, rfl, rfl, rfl⟩

/-- Settles O7: each word is decoded. -/
theorem sampleWordsDecode : Obligations.SampleWordsDecode := by
  unfold Obligations.SampleWordsDecode
  decide

/-- Settles O8: the fields are slices of the concatenations that make the words. -/
theorem outputWordFields : Obligations.OutputWordFields := by
  unfold Obligations.OutputWordFields
  refine ⟨?_, rfl, ?_, ?_, ?_⟩
  · intro c
    exact ⟨BitVec.extractLsb'_append_eq_left, BitVec.extractLsb'_append_eq_right⟩
  · intro posw b
    exact decOutFields 0#2 b 0#posw
  · intro posw c p
    obtain ⟨hkind, hdata, hpos⟩ := decOutFields 1#2 c (BitVec.ofNat posw p)
    exact ⟨hkind, hdata, by rw [DecOut.word, hpos, BitVec.toNat_ofNat]⟩
  · intro posw e
    exact decOutFields 2#2 _ 0#posw

/-- Settles O9: the 32 entries, computed. -/
theorem alphabetTable : Obligations.AlphabetTable := by
  unfold Obligations.AlphabetTable
  refine ⟨by decide, ?_, by decide⟩
  intro v v' h
  have hrev := congrArg rev h
  rw [rev_alpha, rev_alpha] at hrev
  exact CharClass.sym.inj hrev

/-- Settles O10: the ranges by themselves, the counts over all 256 codes, and the tables as each other's inverse. -/
theorem reverseTable : Obligations.ReverseTable := by
  unfold Obligations.ReverseTable
  refine ⟨fun _ => rfl, ?_, by decide +kernel, by decide +kernel, by decide +kernel, rev_alpha, alpha_of_rev_eq_sym⟩
  intro c
  exact ⟨rev_of_upper c, rev_of_lower c, rev_of_digit c, fun h => (rev_eq_pad_iff c).2 (BitVec.eq_of_toNat_eq h), rev_of_foreign c⟩

end

