-- ==== Sys2Proof/Proofs/EncArith.lean ====
section
/-! SUPPORT. The encoder's steps in the arithmetic of the rules: ENC.BYTE's groups as quotients of the window (R102), the flushed group
as a multiple of the residue (R104), the pads as what the symbols leave of a block (R106, R107), and the lengths of `Encode` (R101,
R152). -/

namespace Sys2Proof.Machine

/-- ENC.BYTE on legal registers, as an exact next state (R102). -/
theorem exec_encByte_of_legal {s : State} (h : s.enc.legal = true) (b : Byte) :
    exec (.encByte b) s =
      .next { s with enc := s.enc.afterByte b, encOut := s.encOut ++ charsOf (s.enc.byteGroups b) } :=
  State.onEnc_of_legal h (State.encByte b)

/-- ENC.END on legal registers, as an exact next state (R104). -/
theorem exec_encEnd_of_legal {s : State} (h : s.enc.legal = true) (p : Byte) :
    exec (.encEnd p) s =
      .next { s with enc := EncRegs.reset, encOut := s.encOut ++ (charsOf s.enc.flushGroups ++ [.eom]) } :=
  State.onEnc_of_legal h State.encEnd

/-- ENC.ENDP on legal registers, as an exact next state (R106). -/
theorem exec_encEndp_of_legal {s : State} (h : s.enc.legal = true) (p : Byte) :
    exec (.encEndp p) s =
      .next { s with enc := EncRegs.reset, encOut := s.encOut ++ (charsOf s.enc.flushGroups ++ s.enc.padding ++ [.eom]) } :=
  State.onEnc_of_legal h State.encEndp

/-- The five bits of a word from position `k` up, as a quotient of its number. -/
theorem extractLsb'_five_eq_ofNat {m : Nat} (w : BitVec m) (k : Nat) :
    w.extractLsb' k 5 = BitVec.ofNat 5 (w.toNat / 2 ^ k % 32) := by
  apply BitVec.eq_of_toNat_eq
  rw [BitVec.extractLsb'_toNat, BitVec.toNat_ofNat, Nat.shiftRight_eq_div_pow]
  exact (Nat.mod_mod _ _).symm

/-- With `t = e_n + 8` bits in the window, a second group is completed from `t = 10` on; `r` bits stay (R102). -/
theorem EncRegs.afterByte_eN_val (r : EncRegs) (b : Byte) :
    (r.afterByte b).eN.val = if r.eN.val + 8 ≥ 10 then r.eN.val + 8 - 10 else r.eN.val + 8 - 5 := by
  rw [EncRegs.afterByte_eN]
  split <;> split <;> omega

/-- `e_sym8` counts one group, from `t = 10` on two (R102). -/
theorem EncRegs.afterByte_eSym8_count (r : EncRegs) (b : Byte) :
    (r.afterByte b).eSym8.val = (r.eSym8.val + if r.eN.val + 8 ≥ 10 then 2 else 1) % 8 := by
  rw [EncRegs.afterByte_eSym8_val, EncRegs.byteGroups_length]
  exact congrArg (fun c => (r.eSym8.val + c) % 8) (if_congr (by omega) rfl rfl)

/-- The residue after a byte is the window's number modulo `2 ^ r` (R102). -/
theorem EncRegs.afterByte_eAcc_toNat (r : EncRegs) (b : Byte) :
    (r.afterByte b).eAcc.toNat =
      (r.eAcc.toNat * 256 + b.toNat) % 2 ^ (if r.eN.val + 8 ≥ 10 then r.eN.val + 8 - 10 else r.eN.val + 8 - 5) := by
  rw [EncRegs.afterByte_eAcc, EncRegs.window_toNat, EncRegs.afterByte_eN_val]

/-- The groups of a byte, as quotients of the window's number `w` (R102). -/
theorem EncRegs.byteGroups_eq_ofNat (r : EncRegs) (b : Byte) :
    r.byteGroups b =
      let w := r.eAcc.toNat * 256 + b.toNat
      if r.eN.val + 8 ≥ 10 then
        [BitVec.ofNat 5 (w / 2 ^ (r.eN.val + 8 - 5) % 32), BitVec.ofNat 5 (w / 2 ^ (r.eN.val + 8 - 10) % 32)]
      else [BitVec.ofNat 5 (w / 2 ^ (r.eN.val + 8 - 5) % 32)] := by
  simp only [EncRegs.byteGroups, extractLsb'_five_eq_ofNat, EncRegs.window_toNat]

/-- The flushed group is the residue times `2 ^ (5 - e_n)` (R104). -/
theorem EncRegs.flushGroups_eq_ofNat (r : EncRegs) :
    r.flushGroups = if 0 < r.eN.val then [BitVec.ofNat 5 (r.eAcc.toNat * 2 ^ (5 - r.eN.val))] else [] := by
  have hgroup : r.eAcc.setWidth 5 <<< (5 - r.eN.val) = BitVec.ofNat 5 (r.eAcc.toNat * 2 ^ (5 - r.eN.val)) := by
    apply BitVec.eq_of_toNat_eq
    rw [BitVec.toNat_shiftLeft, BitVec.toNat_setWidth, BitVec.toNat_ofNat, Nat.shiftLeft_eq, Nat.mod_mul_mod]
  rw [EncRegs.flushGroups, hgroup]

/-- The flushed symbol as `ENC_OUT` tokens (R104). -/
theorem EncRegs.charsOf_flushGroups (r : EncRegs) :
    charsOf r.flushGroups =
      if 0 < r.eN.val then [.char (alpha (BitVec.ofNat 5 (r.eAcc.toNat * 2 ^ (5 - r.eN.val))))] else [] := by
  rw [EncRegs.flushGroups_eq_ofNat, charsOf]
  split <;> rfl

/-- The symbols of a message modulo 8, once its close has flushed the residue (R106, R107). -/
def EncRegs.closedSymbols (r : EncRegs) : Nat :=
  if 0 < r.eN.val then (r.eSym8.val + 1) % 8 else r.eSym8.val

/-- The pads fill the block that the symbols of the message leave open (R106, R107). -/
theorem EncRegs.padding_eq (r : EncRegs) :
    r.padding = List.replicate ((8 - r.closedSymbols) % 8) (.char padCode) := by
  have hcount : (if r.eN.val > 0 then r.eSym8 + 1 else r.eSym8).val = r.closedSymbols := by
    unfold EncRegs.closedSymbols
    split
    · exact Fin.val_add _ _
    · rfl
  rw [EncRegs.padding, padCount, hcount]

/-- The pad counts of the five counter pairs a message can reach (R23, R107). -/
theorem EncRegs.padCount_of_paired {r : EncRegs} (h : r.paired = true) :
    (8 - r.closedSymbols) % 8 ∈ [0, 1, 3, 4, 6] := by
  have hpairs : ∀ q ∈ encPairs, (8 - if 0 < q.1 then (q.2 + 1) % 8 else q.2) % 8 ∈ [0, 1, 3, 4, 6] := by decide
  exact hpairs (r.eN.val, r.eSym8.val) (List.contains_iff_mem.1 h)

end Sys2Proof.Machine

namespace Sys2Proof.Codec

/-- The unpadded encoding has `ceil(8 N / 5)` characters (R101). -/
theorem encode_unpadded_length (bs : List Byte) : (encode bs false).length = (8 * bs.length + 4) / 5 := by
  simp [encode, symbolCount]

/-- The padded encoding is `ceil(N / 5)` blocks of 8 characters (R101, R152). -/
theorem encode_padded_length (bs : List Byte) : (encode bs true).length = 8 * ((bs.length + 4) / 5) := by
  have hlen : (encode bs true).length = symbolCount bs.length + (8 - symbolCount bs.length % 8) % 8 := by simp [encode]
  rw [hlen, symbolCount]
  omega

end Sys2Proof.Codec
end

