-- ==== Sys2Proof/Proofs/Encoder.lean ====
section
/-! The settled statements of 40_encoder.md. -/

open Sys2Proof Sys2Proof.Machine

/-- Settles O15: the residue, the counters and the groups are those of the rule's arithmetic; the example is computed from reset. -/
theorem encByteResult : Obligations.EncByteResult := by
  unfold Obligations.EncByteResult
  refine ⟨?_, ?_⟩
  · intro s b hlegal t w g1 g2 r c out
    refine ⟨s.enc.afterByte b, s.enc.afterByte_eAcc_toNat b, s.enc.afterByte_eN_val b, s.enc.afterByte_eSym8_count b, ?_⟩
    have hout : charsOf (s.enc.byteGroups b) = out := by
      rw [EncRegs.byteGroups_eq_ofNat, charsOf]
      exact apply_ite _ _ _ _
    rw [exec_encByte_of_legal hlegal, hout]
  · intro s henc
    have hregs : EncRegs.reset.afterByte 0x66 = { eAcc := 6, eN := 3, eSym8 := 1 } := by decide
    have hout : charsOf (EncRegs.reset.byteGroups 0x66) = [.char 0x4D] := by decide
    rw [exec_encByte_of_legal (henc ▸ EncRegs.reset_legal), henc, hregs, hout]

/-- Settles O17: the close flushes the residue left-aligned, if there is one, and then emits EOM. -/
theorem encEndResult : Obligations.EncEndResult := by
  unfold Obligations.EncEndResult
  refine ⟨?_, ?_⟩
  · intro s p hlegal g flush
    rw [exec_encEnd_of_legal hlegal, EncRegs.charsOf_flushGroups, ← List.append_assoc]
    rfl
  · intro s henc
    have hlegal : s.enc.legal = true := by rw [henc]; decide
    have hflush : charsOf s.enc.flushGroups = [.char 0x59] := by rw [henc]; decide
    rw [exec_encEnd_of_legal hlegal, hflush]
    rfl

/-- Settles O18: as O17, with the pads that fill the block between the flushed symbol and EOM. -/
theorem encEndpResult : Obligations.EncEndpResult := by
  unfold Obligations.EncEndpResult
  refine ⟨?_, ?_⟩
  · intro s p hlegal g flush n pads
    refine ⟨EncRegs.padCount_of_paired, ?_⟩
    rw [exec_encEndp_of_legal hlegal, EncRegs.charsOf_flushGroups, EncRegs.padding_eq, ← List.append_assoc, ← List.append_assoc]
    rfl
  · intro s henc
    have hlegal : s.enc.legal = true := by rw [henc]; decide
    have hflush : charsOf s.enc.flushGroups = [.char 0x59] := by rw [henc]; decide
    have hpads : s.enc.padding = List.replicate 6 (.char 0x3D) := by rw [henc]; decide
    rw [exec_encEndp_of_legal hlegal, hflush, hpads]
    rfl

/-- Settles O37: the symbols are counted and the pads round their count up to whole blocks; the empty message has neither. -/
theorem encodeLengths : Obligations.EncodeLengths := by
  unfold Obligations.EncodeLengths
  refine ⟨?_, rfl, rfl⟩
  intro bs
  have hpadded := Codec.encode_padded_length bs
  exact ⟨Codec.encode_unpadded_length bs, hpadded, by rw [hpadded, Nat.mul_mod_right]⟩

end

