-- ==== Sys2Proof/Proofs/DecArith.lean ====
section
/-! SUPPORT. The decoder's steps as exact next states, an equation per arm of DEC.CHAR, and R124's residue, count and byte in the
rule's own arithmetic (R123 to R130). -/

namespace Sys2Proof.Machine

/-! ## DEC.CHAR and DEC.END on legal registers -/

/-- DEC.CHAR on legal registers takes the step of its arm (R123). -/
theorem exec_decChar_of_legal {s : State} (h : s.dec.legal s.posw = true) (c : Code) : exec (.decChar c) s = .next (s.decChar c) :=
  State.onDec_of_legal h (State.decChar c)

/-- DEC.END on legal registers, as an exact next state (R130). -/
theorem exec_decEnd_of_legal {s : State} (h : s.dec.legal s.posw = true) (p : Byte) :
    exec (.decEnd p) s = .next { s with dec := DecRegs.reset, decOut := s.decOut ++ [.eom s.dec.dErr] } :=
  State.onDec_of_legal h State.closeDec

section Arms

variable {c : Code} {s : State} (hlegal : s.dec.legal s.posw = true)
include hlegal

theorem exec_decChar_of_error (herr : s.dec.dErr = true) : exec (.decChar c) s = .next s := by
  rw [exec_decChar_of_legal hlegal, State.decChar_of_error herr]

variable (herr : s.dec.dErr = false)
include herr

theorem exec_decChar_of_pad (hrev : rev c = .pad) : exec (.decChar c) s = .next { s with dec := s.dec.afterPad s.posw } := by
  rw [exec_decChar_of_legal hlegal, State.decChar_of_pad herr hrev]
  rfl

theorem exec_decChar_of_symbol (hpad : s.dec.dPad = false) {v : Group} (hrev : rev c = .sym v) :
    exec (.decChar c) s =
      .next { s with dec := s.dec.afterSym s.posw v, decOut := s.decOut ++ s.dec.symBytes v } := by
  rw [exec_decChar_of_legal hlegal, State.decChar_of_symbol herr hpad hrev]
  rfl

theorem exec_decChar_of_foreign (hpad : s.dec.dPad = false) (hrev : rev c = .inv) :
    exec (.decChar c) s = .next { s with dec := s.dec.setErr, decOut := s.decOut ++ [.err c s.dec.dPos] } := by
  rw [exec_decChar_of_legal hlegal, State.decChar_of_foreign herr hpad hrev]
  rfl

theorem exec_decChar_of_brokenRun (hpad : s.dec.dPad = true) (hrev : rev c ≠ .pad) :
    exec (.decChar c) s = .next { s with dec := s.dec.setErr, decOut := s.decOut ++ [.err padCode s.dec.dPadpos] } := by
  rw [exec_decChar_of_legal hlegal, State.decChar_of_brokenRun herr hpad hrev]
  rfl

end Arms

/-! ## What of the character reaches the step -/

/-- Of a symbol character only its value reaches the step: upper and lower case act alike (R77, R124). -/
theorem State.decChar_eq_of_same_symbol {c c' : Code} {v : Group} (hc : rev c = .sym v) (hc' : rev c' = .sym v) (s : State) :
    s.decChar c = s.decChar c' := by
  have hne : CharClass.sym v ≠ .pad := nofun
  cases herr : s.dec.dErr with
  | true => rw [State.decChar_of_error herr, State.decChar_of_error herr]
  | false =>
    cases hpad : s.dec.dPad with
    | true => rw [State.decChar_of_brokenRun herr hpad (hc ▸ hne), State.decChar_of_brokenRun herr hpad (hc' ▸ hne)]
    | false => rw [State.decChar_of_symbol herr hpad hc, State.decChar_of_symbol herr hpad hc']

/-- Case normalisation leaves a foreign character alone: the lower-case letters are symbols (R77, R78). -/
theorem caseNorm_of_foreign {c : Code} (h : rev c = .inv) : caseNorm c = c := by
  have hnotLower : ¬(0x61 ≤ c.toNat ∧ c.toNat ≤ 0x7A) := by
    intro hlower
    rw [rev_of_lower c hlower] at h
    cases h
  exact if_neg hnotLower

/-- An `'='` in the rule's own case split: the first of a run is the one that comes while none is open (R126). -/
theorem DecRegs.afterPad_eq (posw : Nat) (r : DecRegs) :
    r.afterPad posw =
      { r with
        dPad := true
        dPadpos := if r.dPad = false then r.dPos else r.dPadpos
        dPos := (r.dPos + 1) % 2 ^ posw } := by
  cases hpad : r.dPad <;> simp [DecRegs.afterPad, nextPos, hpad]

/-! ## A symbol in the rule's arithmetic -/

/-- With `t = d_n + 5` bits in the window, a byte is completed from `t = 8` on; `r` bits stay (R124). -/
theorem DecRegs.afterSym_dN_val (posw : Nat) (r : DecRegs) (v : Group) :
    (r.afterSym posw v).dN.val = if r.dN.val + 5 ≥ 8 then r.dN.val + 5 - 8 else r.dN.val + 5 := by
  show r.nAfterSym.val = _
  rw [DecRegs.nAfterSym_val]
  split <;> split <;> omega

/-- The residue after a symbol is the window's number modulo `2 ^ r` (R124). -/
theorem DecRegs.afterSym_dAcc_toNat (posw : Nat) (r : DecRegs) (v : Group) :
    (r.afterSym posw v).dAcc.toNat =
      (r.dAcc.toNat * 32 + v.toNat) % 2 ^ (if r.dN.val + 5 ≥ 8 then r.dN.val + 5 - 8 else r.dN.val + 5) := by
  rw [← DecRegs.afterSym_dN_val posw r v, ← DecRegs.window_toNat]
  exact lowBits_toNat _ (Nat.le_of_lt_succ r.nAfterSym.isLt)

/-- The byte a symbol completes, as a quotient of the window's number (R124). -/
theorem DecRegs.symBytes_eq_ofNat (r : DecRegs) (v : Group) :
    r.symBytes v =
      if r.dN.val + 5 ≥ 8 then
        [.byte (BitVec.ofNat 8 ((r.dAcc.toNat * 32 + v.toNat) / 2 ^ (r.dN.val + 5 - 8) % 256))]
      else [] := by
  have hbyte (k : Nat) : (r.window v).extractLsb' k 8 = BitVec.ofNat 8 ((r.dAcc.toNat * 32 + v.toNat) / 2 ^ k % 256) := by
    apply BitVec.eq_of_toNat_eq
    rw [BitVec.extractLsb'_toNat, BitVec.toNat_ofNat, Nat.shiftRight_eq_div_pow, DecRegs.window_toNat]
    exact (Nat.mod_mod _ _).symm
  rw [DecRegs.symBytes, hbyte]

/-! ## Positions that do not wrap -/

/-- A position that does not wrap at `k` bits does not wrap at more (R200). -/
theorem nextPos_of_wider {k posw pos : Nat} (hk : k ≤ posw) (h : pos + 1 < 2 ^ k) : nextPos posw pos = nextPos k pos := by
  have hposw : pos + 1 < 2 ^ posw := h.trans_le (Nat.pow_le_pow_right Nat.two_pos hk)
  rw [nextPos, nextPos, Nat.mod_eq_of_lt h, Nat.mod_eq_of_lt hposw]

theorem DecRegs.afterSym_of_wider {k posw : Nat} (hk : k ≤ posw) {r : DecRegs} (h : r.dPos + 1 < 2 ^ k) (v : Group) :
    r.afterSym posw v = r.afterSym k v := by
  rw [DecRegs.afterSym, DecRegs.afterSym, nextPos_of_wider hk h]

theorem DecRegs.afterPad_of_wider {k posw : Nat} (hk : k ≤ posw) {r : DecRegs} (h : r.dPos + 1 < 2 ^ k) :
    r.afterPad posw = r.afterPad k := by
  rw [DecRegs.afterPad, DecRegs.afterPad, nextPos_of_wider hk h]

/-- A character moves the position up by one at most (R124 to R129). -/
theorem State.decChar_dPos_le (c : Code) (s : State) : (s.decChar c).dec.dPos ≤ s.dec.dPos + 1 := by
  obtain ⟨-, h⟩ | ⟨v, -, -, -, h⟩ | ⟨-, -, h⟩ | ⟨-, -, -, h⟩ | ⟨-, -, -, h⟩ := s.decChar_cases c <;> rw [h]
  · exact Nat.le_succ _
  · exact Nat.mod_le _ _
  · exact Nat.mod_le _ _
  · exact Nat.le_succ _
  · exact Nat.le_succ _

/-- DEC of `s` stands as DEC of `t` does, with at least as wide a position, and has delivered `past` and then what `t` has. -/
structure WidensDec (past : List DecOut) (t s : State) : Prop where
  dec : s.dec = t.dec
  posw : t.posw ≤ s.posw
  decOut : s.decOut = past ++ t.decOut

section Widens

variable {past : List DecOut} {t s : State} (h : WidensDec past t s)
include h

theorem WidensDec.raiseInvalidSymbol (c : Code) (p : Nat) : WidensDec past (t.raiseInvalidSymbol c p) (s.raiseInvalidSymbol c p) :=
  ⟨by simp [h.dec], h.posw, by simp [h.decOut]⟩

variable (hpos : t.dec.dPos + 1 < 2 ^ t.posw)
include hpos

theorem WidensDec.decSymbol (v : Group) : WidensDec past (t.decSymbol v) (s.decSymbol v) :=
  ⟨by simp [h.dec, DecRegs.afterSym_of_wider h.posw hpos], h.posw, by simp [h.dec, h.decOut]⟩

theorem WidensDec.decPad : WidensDec past t.decPad s.decPad :=
  ⟨by simp [h.dec, DecRegs.afterPad_of_wider h.posw hpos], h.posw, by simp [h.decOut]⟩

/-- A step that does not wrap the narrow position is the same step at the wide one: the mode picks the arm. -/
theorem WidensDec.decChar (c : Code) : WidensDec past (t.decChar c) (s.decChar c) := by
  unfold State.decChar
  rw [h.dec]
  split
  · exact h
  · exact h.decSymbol hpos _
  · exact h.decPad hpos
  · exact h.raiseInvalidSymbol _ _
  · exact h.decPad hpos
  · exact h.raiseInvalidSymbol _ _
  · exact h.raiseInvalidSymbol _ _

end Widens

/-- A run too short to wrap the narrow position is the same run at the wide one. -/
theorem WidensDec.decChars {past : List DecOut} {t s : State} (h : WidensDec past t s) {cs : List Code}
    (hlen : t.dec.dPos + cs.length < 2 ^ t.posw) : WidensDec past (t.decChars cs) (s.decChars cs) := by
  induction cs generalizing t s with
  | nil => exact h
  | cons c cs ih =>
    rw [List.length_cons] at hlen
    have hpos := t.decChar_dPos_le c
    apply ih (h.decChar (by omega) c)
    rw [(t.decChar_changesOnlyDec c).posw]
    omega

/-- The block just reset, but for a position of `k` bits and the registers `r` in DEC. -/
def decAlone (k : Nat) (r : DecRegs) : State := { State.reset with posw := k, dec := r }

section Short

variable {s : State} {r r' : DecRegs} {ds : List DecOut} {k : Nat} {cs : List Code} (hdec : s.dec = r) (hk : k ≤ s.posw)
  (hlen : r.dPos + cs.length < 2 ^ k)
  (hrun : ((decAlone k r).decChars cs).dec = r' ∧ ((decAlone k r).decChars cs).decOut = ds)
include hdec hk hlen hrun

/-- Characters too few to wrap a position of `k` bits do, at every larger width and after any history, what they do in `decAlone`:
a short run is settled for all of them at once by computing it there. -/
theorem State.decChars_of_short : s.decChars cs = { s with dec := r', decOut := s.decOut ++ ds } := by
  have hstart : WidensDec s.decOut (decAlone k r) s := ⟨hdec, hk, (List.append_nil _).symm⟩
  obtain ⟨hend, -, hout⟩ := hstart.decChars hlen
  obtain ⟨henc, hencOut, hle, hposw, hinput, -⟩ := s.decChars_changesOnlyDec cs
  obtain ⟨rfl, rfl⟩ := hrun
  rw [← hend, ← hout, ← henc, ← hencOut, ← hle, ← hposw, ← hinput]

end Short

/-- The same where nothing is emitted. -/
theorem State.decChars_of_short_silent {s : State} {r r' : DecRegs} {k : Nat} {cs : List Code} (hdec : s.dec = r) (hk : k ≤ s.posw)
    (hlen : r.dPos + cs.length < 2 ^ k)
    (hrun : ((decAlone k r).decChars cs).dec = r' ∧ ((decAlone k r).decChars cs).decOut = []) :
    s.decChars cs = { s with dec := r' } := by
  rw [State.decChars_of_short hdec hk hlen hrun, List.append_nil]

/-- What the character steps give, the instructions of the run give (R123). -/
theorem execAll_decChars_eq {s t : State} (hlegal : s.dec.legal s.posw = true) {cs : List Code} (h : s.decChars cs = t) :
    execAll (cs.map .decChar) s = .next t :=
  h ▸ (execAll_decChars hlegal cs).1

end Sys2Proof.Machine
end

