-- ==== Sys2Proof/Proofs/Decoder.lean ====
section
/-! The settled statements of 41_decoder.md. -/

open Sys2Proof Sys2Proof.Machine

/-- Settles O21: residue, count and byte are those of the rule's arithmetic, and only the symbol's value matters; the example is two
symbol steps from reset. -/
theorem decSymbolInNormalMode : Obligations.DecSymbolInNormalMode := by
  unfold Obligations.DecSymbolInNormalMode
  refine ⟨?_, ?_, ?_⟩
  · intro s c v hlegal herr hpad hrev t w r out
    refine ⟨s.dec.afterSym s.posw v, s.dec.afterSym_dAcc_toNat s.posw v, s.dec.afterSym_dN_val s.posw v, rfl, rfl, rfl, rfl, ?_⟩
    rw [exec_decChar_of_symbol hlegal herr hpad hrev, DecRegs.symBytes_eq_ofNat]
  · intro s c c' v hc hc'
    exact congrArg s.onDec (funext (State.decChar_eq_of_same_symbol hc hc'))
  · intro s hdec hposw
    have hlegal : s.dec.legal s.posw = true := hdec ▸ DecRegs.reset_legal s.posw
    refine ⟨?_, ?_⟩
    · rw [exec_decChar_of_legal hlegal]
      exact congrArg _ (State.decChars_of_short_silent (cs := [0x4D]) hdec hposw (by decide) (by decide))
    · exact execAll_decChars_eq hlegal (State.decChars_of_short (cs := [0x4D, 0x59]) hdec hposw (by decide) (by decide))

/-- Settles O22: outside mode ERROR a character that breaks the run raises on `d_padpos`; the examples take three steps to open a run
at position 2. -/
theorem decBrokenPadRunBlamesItsFirstPad : Obligations.DecBrokenPadRunBlamesItsFirstPad := by
  unfold Obligations.DecBrokenPadRunBlamesItsFirstPad
  refine ⟨?_, ?_⟩
  · intro s c hlegal herr hpad hrev
    exact exec_decChar_of_brokenRun hlegal herr hpad hrev
  · intro s c hdec hposw hc
    have hlegal : s.dec.legal s.posw = true := hdec ▸ DecRegs.reset_legal s.posw
    have hrev : rev c ≠ .pad := by
      obtain rfl | rfl := hc <;> decide
    have hopened : s.decChars [0x41, 0x41, 0x3D] =
        { s with
          dec := { dAcc := 0, dN := 2, dPos := 3, dPad := true, dPadpos := 2, dErr := false }
          decOut := s.decOut ++ [.byte 0x00] } :=
      State.decChars_of_short hdec hposw (by decide) (by decide)
    have hbroken : s.decChars [0x41, 0x41, 0x3D, c] = (s.decChars [0x41, 0x41, 0x3D]).raiseInvalidSymbol padCode 2 := by
      show (s.decChars [0x41, 0x41, 0x3D]).decChar c = _
      rw [hopened]
      exact State.decChar_of_brokenRun rfl rfl hrev
    refine execAll_decChars_eq (cs := [0x41, 0x41, 0x3D, c]) hlegal ?_
    rw [hbroken, hopened, State.raiseInvalidSymbol, State.emitDec, State.setDec, List.append_assoc]
    rfl

/-- Settles O23: the pad arm in both modes; the example opens a run at position 2 and continues it. -/
theorem decPadCharacterDefersTheVerdict : Obligations.DecPadCharacterDefersTheVerdict := by
  unfold Obligations.DecPadCharacterDefersTheVerdict
  refine ⟨?_, ?_⟩
  · intro s c hlegal herr hrev
    refine ⟨(rev_eq_pad_iff c).1 hrev, ?_⟩
    rw [exec_decChar_of_pad hlegal herr hrev, DecRegs.afterPad_eq]
  · intro s hdec hposw
    have hlegal : s.dec.legal s.posw = true := by
      have hwide : 2 ^ 3 ≤ 2 ^ s.posw := Nat.pow_le_pow_right Nat.two_pos hposw
      rw [hdec, DecRegs.legal_iff]
      exact ⟨by decide, lt_of_lt_of_le (by decide) hwide, lt_of_lt_of_le (by decide) hwide⟩
    refine ⟨?_, ?_⟩
    · rw [exec_decChar_of_legal hlegal]
      exact congrArg _ (State.decChars_of_short_silent (cs := [0x3D]) hdec hposw (by decide) (by decide))
    · exact execAll_decChars_eq hlegal
        (State.decChars_of_short_silent (cs := [0x3D, 0x3D]) hdec hposw (by decide) (by decide))

/-- Settles O24: a foreign character is its own normalised code; the flag and the report are the whole effect. -/
theorem decForeignCharacterRaises : Obligations.DecForeignCharacterRaises := by
  unfold Obligations.DecForeignCharacterRaises
  refine ⟨?_, ?_⟩
  · intro s c hlegal herr hpad hrev
    exact ⟨caseNorm_of_foreign hrev, exec_decChar_of_foreign hlegal herr hpad hrev⟩
  · intro s hdec
    have hlegal : s.dec.legal s.posw = true := hdec ▸ DecRegs.reset_legal s.posw
    rw [exec_decChar_of_foreign hlegal (by rw [hdec]; rfl) (by rw [hdec]; rfl) (by decide), hdec]
    rfl

/-- Settles O26: the close is exact whatever the residue; the example is a whole message, whose tokens are `Decode`'s. -/
theorem decEndResult : Obligations.DecEndResult := by
  unfold Obligations.DecEndResult
  refine ⟨?_, ?_⟩
  · intro s p hlegal
    exact exec_decEnd_of_legal hlegal p
  · intro s hdec
    have hdecode : Codec.decode [0x4D, 0x59, 0x3D, 0x3D, 0x3D, 0x3D, 0x3D, 0x3D] = .bytes [0x66] := by decide
    have htokens : decodeTokens s.posw [0x4D, 0x59, 0x3D, 0x3D, 0x3D, 0x3D, 0x3D, 0x3D] = [.byte 0x66, .eom false] := by
      rw [decodeTokens, hdecode]
      rfl
    rw [← htokens]
    exact execAll_decode hdec [0x4D, 0x59, 0x3D, 0x3D, 0x3D, 0x3D, 0x3D, 0x3D] 0

/-- Settles O25: mode ERROR is the arm that leaves the state as it is. -/
theorem decErrorModeSwallows : Obligations.DecErrorModeSwallows := by
  unfold Obligations.DecErrorModeSwallows
  intro s c hlegal herr
  exact exec_decChar_of_error hlegal herr

end

