-- ==== Sys2Proof/Proofs/RoundTrip.lean ====
section
/-! SUPPORT. `Decode` undoes `Encode`: a bitstream is the bits of its chunks and what is left over, and the chunks of a sequence's bits
are that sequence (R51, R100, R120, R150, R151). -/

namespace Sys2Proof.Codec

open Sys2Proof.Machine

/-- Bits of one length are told apart by their value. -/
theorem eq_of_valueOfBits_eq {l m : List Bool} (hlen : l.length = m.length) (h : valueOfBits l = valueOfBits m) : l = m := by
  induction l using List.reverseRecOn generalizing m with
  | nil => exact (List.eq_nil_of_length_eq_zero hlen.symm).symm
  | append_singleton l b ih =>
    obtain rfl | ⟨m, c, rfl⟩ := List.eq_nil_or_concat' m
    · simp at hlen
    · rw [valueOfBits_append_singleton, valueOfBits_append_singleton] at h
      have hb := b.toNat_lt
      have hc := c.toNat_lt
      have hlast : b = c := Function.LeftInverse.injective Bool.ofNat_toNat (by omega)
      rw [ih (by simpa using hlen) (by omega), hlast]

/-- A chunk's bits are the bitstream's bits at its positions. -/
theorem bitsMsbFirst_chunkAt {w i : Nat} {z : List Bool} (h : w * (i + 1) ≤ z.length) :
    bitsMsbFirst (chunkAt w z i) = (z.drop (w * i)).take w := by
  rw [Nat.mul_succ] at h
  have hlen : ((z.drop (w * i)).take w).length = w := by
    rw [List.length_take, List.length_drop]
    omega
  have hlt := valueOfBits_lt ((z.drop (w * i)).take w)
  rw [hlen] at hlt
  apply eq_of_valueOfBits_eq
  · rw [bitsMsbFirst_length, hlen]
  · rw [valueOfBits_bitsMsbFirst, chunkAt, BitVec.toNat_ofNat, Nat.mod_eq_of_lt hlt]

/-- A bitstream is the bits of its whole chunks, then what they leave over. -/
theorem flatMap_chunks_append_leftover (w : Nat) (z : List Bool) : (chunks w z).flatMap bitsMsbFirst ++ leftover w z = z := by
  have hfirst (k : Nat) (hk : w * k ≤ z.length) :
      ((List.range k).map (chunkAt w z)).flatMap bitsMsbFirst = z.take (w * k) := by
    induction k with
    | zero => rfl
    | succ k ih =>
      have hk' : w * k ≤ z.length := (Nat.mul_le_mul_left w k.le_succ).trans hk
      rw [List.range_succ, List.map_append, List.flatMap_append, ih hk', List.map_singleton, List.flatMap_singleton,
        bitsMsbFirst_chunkAt hk, Nat.mul_succ, List.take_add]
  rw [chunks, hfirst _ (Nat.mul_div_le z.length w), leftover, List.take_append_drop]

theorem chunks_bitsMsbFirst {w : Nat} (hw : 0 < w) (v : BitVec w) : chunks w (bitsMsbFirst v) = [v] := by
  have hself : chunkAt w (bitsMsbFirst v) 0 = v := by
    rw [chunkAt_eq_extractLsb' (valueOfBits_bitsMsbFirst v).symm (by simp)]
    simp
  simp [chunks, Nat.div_self hw, hself]

/-- The chunks of a sequence's bits, with more bits after them, are the sequence and the chunks of those. -/
theorem chunks_flatMap_append {w : Nat} (hw : 0 < w) (vs : List (BitVec w)) (y : List Bool) :
    chunks w (vs.flatMap bitsMsbFirst ++ y) = vs ++ chunks w y := by
  induction vs with
  | nil => rfl
  | cons v vs ih =>
    have hrest : leftover w (bitsMsbFirst v) = [] := List.eq_nil_of_length_eq_zero (by simp)
    rw [List.flatMap_cons, List.append_assoc, chunks_append hw, chunks_bitsMsbFirst hw, hrest, List.nil_append, ih]
    rfl

/-- The zero bits that fill the last group of a byte sequence (R100). -/
def fillBits (bs : List Byte) : List Bool := List.replicate ((5 - 8 * bs.length % 5) % 5) false

theorem fillBits_length_lt (bs : List Byte) : (fillBits bs).length < 5 := by
  rw [fillBits, List.length_replicate]
  omega

theorem filledBits_length (bs : List Byte) : (bytesToBits bs ++ fillBits bs).length % 5 = 0 := by
  rw [List.length_append, bytesToBits_length, fillBits, List.length_replicate]
  omega

theorem encodeGroups_eq_chunks (bs : List Byte) : encodeGroups bs = chunks 5 (bytesToBits bs ++ fillBits bs) := by
  rw [encodeGroups_eq, fillBits, chunks_append (by decide) (bytesToBits bs)]

/-- The groups of a byte sequence are its bits and the fill (R100). -/
theorem groupsToBits_encodeGroups (bs : List Byte) : groupsToBits (encodeGroups bs) = bytesToBits bs ++ fillBits bs := by
  have hwhole : leftover 5 (bytesToBits bs ++ fillBits bs) = [] :=
    List.eq_nil_of_length_eq_zero (by rw [leftover_length, filledBits_length])
  have hbits := flatMap_chunks_append_leftover 5 (bytesToBits bs ++ fillBits bs)
  rwa [hwhole, List.append_nil, ← encodeGroups_eq_chunks] at hbits

/-- The bytes of an encoding's groups are the bytes encoded; the fill is too short for a byte (R150). -/
theorem assemble_encodeGroups (bs : List Byte) : assemble (encodeGroups bs) = bs := by
  have hfill : (fillBits bs).length < 8 := (fillBits_length_lt bs).trans (by decide)
  rw [assemble_eq, groupsToBits_encodeGroups, bytesToBits, chunks_flatMap_append (by decide), chunks_of_length_lt hfill,
    List.append_nil]

theorem spells_map_alpha (gs : List Group) : Spells (gs.map alpha) gs := by
  induction gs with
  | nil => exact .nil
  | cons g gs ih => exact .cons (rev_alpha g) ih

/-- `Decode` undoes `Encode` in both variants (R150, R151). -/
theorem decode_encode_eq_bytes (bs : List Byte) (padded : Bool) : decode (encode bs padded) = .bytes bs := by
  have hspells := spells_map_alpha (encodeGroups bs)
  cases padded with
  | false => exact (decode_of_spells hspells).trans (congrArg _ (assemble_encodeGroups bs))
  | true => exact (decode_whole hspells _).trans (congrArg _ (assemble_encodeGroups bs))

/-- Each variant of `Encode` tells byte sequences apart (R160). -/
theorem encode_injective (padded : Bool) : Function.Injective fun bs => encode bs padded := by
  intro bs bs' h
  have hdecode : decode (encode bs padded) = decode (encode bs' padded) := congrArg decode h
  rw [decode_encode_eq_bytes, decode_encode_eq_bytes] at hdecode
  exact DecodeResult.bytes.inj hdecode

end Sys2Proof.Codec
end

