-- ==== Sys2Proof/Proofs/Identifier.lean ====
section
/-! SUPPORT. The identifier multiplexer: Reorder by lanes and its inverse (R140, R142), `IdentifierToBase32` as a function of the
reordered bytes (R141, R145), and UMX.ID after the bytes of a message (R143, R146). -/

namespace Sys2Proof.Machine

/-! ## The lanes -/

theorem reorder_true (id : Ident) :
    reorder id true = #v[id[3], id[2], id[1], id[0], id[5], id[4], id[7], id[6],
      id[8], id[9], id[10], id[11], id[12], id[13], id[14], id[15]] := rfl

@[simp] theorem reorder_false (id : Ident) : reorder id false = id := rfl

/-- Lane `i` of a reordered identifier is lane `pi(i)` of the identifier (R142). -/
theorem reorder_true_getElem (id : Ident) (i : Fin 16) : (reorder id true)[i] = id[lanePerm[i]] := by
  fin_cases i <;> rfl

theorem lanePerm_lanePerm : ∀ i : Fin 16, lanePerm[lanePerm[i]] = i := by decide

/-- The reorder is its own inverse (R142). -/
theorem reorder_involutive (le : Bool) : Function.Involutive fun id => reorder id le := by
  intro id
  cases le with
  | false => rfl
  | true =>
    apply Vector.ext
    intro i hi
    calc (reorder (reorder id true) true)[i]
        = id[lanePerm[lanePerm[(⟨i, hi⟩ : Fin 16)]]] := by rw [← reorder_true_getElem id, ← reorder_true_getElem]; rfl
      _ = id[i] := congrArg (fun j : Fin 16 => id[j]) (lanePerm_lanePerm ⟨i, hi⟩)

/-- The identifiers that the reorder leaves alone: those with equal bytes in the lanes it exchanges (R145). -/
theorem reorder_true_eq_self_iff (id : Ident) :
    reorder id true = id ↔ id[0] = id[3] ∧ id[1] = id[2] ∧ id[4] = id[5] ∧ id[6] = id[7] := by
  constructor
  · intro h
    have hlane (i : Fin 16) : id[i] = id[lanePerm[i]] := by
      rw [← reorder_true_getElem, h]
    exact ⟨hlane 0, hlane 1, hlane 4, hlane 6⟩
  · rintro ⟨h03, h12, h45, h67⟩
    apply Vector.ext
    intro i hi
    rw [reorder_true]
    interval_cases i <;> simp [h03, h12, h45, h67]

/-! ## The identifier's string -/

/-- Two identifier strings agree when the reordered identifiers do (R141, R145). -/
theorem identifierToBase32_eq_iff (id id' : Ident) (le le' : Bool) :
    Codec.identifierToBase32 id le = Codec.identifierToBase32 id' le' ↔ reorder id le = reorder id' le' := by
  constructor
  · intro h
    exact Vector.toList_inj.1 (Codec.encode_injective false h)
  · intro h
    exact congrArg (fun reordered : Ident => Codec.encode reordered.toList false) h

/-- 16 bytes give 26 characters (R144). -/
theorem identifierToBase32_length (id : Ident) (le : Bool) : (Codec.identifierToBase32 id le).length = 26 := by
  rw [Codec.identifierToBase32, Codec.encode_unpadded_length, Vector.length_toList]

/-! ## UMX.ID after the bytes of a message -/

/-- Byte steps on legal registers, then one more instruction. -/
theorem execAll_encBytes_append {s t : State} (h : s.enc.legal = true) (bs : List Byte) {i : Instr}
    (hi : exec i (s.encBytes bs) = .next t) : execAll (bs.map .encByte ++ [i]) s = .next t := by
  rw [execAll_append_of_next (execAll_encBytes h bs), execAll_cons_of_next hi, execAll_nil]

theorem exec_umxId_of_legal {s : State} (h : s.enc.legal = true) (id : Ident) : exec (.umxId id) s = .next (s.umxId id) :=
  State.onEnc_of_legal h (State.umxId id)

/-- The bytes of an open message and UMX.ID's own are one run of bytes, closed unpadded (R146). -/
theorem State.encBytes_umxId (bs : List Byte) (id : Ident) (s : State) :
    (s.encBytes bs).umxId id = (s.encBytes (bs ++ (reorder id s.hostLe).toList)).encEnd := by
  rw [State.umxId, (s.encBytes_changesOnlyEnc bs).hostLe, State.encBytes_append]

/-- UMX.ID between messages emits the identifier's string and EOM (R141, R143). -/
theorem exec_umxId_emits_identifierToBase32 {s : State} (h : s.enc = EncRegs.reset) (id : Ident) :
    exec (.umxId id) s =
      .next { s with encOut := s.encOut ++ (Codec.identifierToBase32 id s.hostLe).map .char ++ [.eom] } := by
  rw [exec_umxId_of_reset h, encodeTokens, ← List.append_assoc]
  rfl

end Sys2Proof.Machine
end

