-- ==== Sys2Proof/Proofs/UuidMux.lean ====
section
/-! The settled statements of 42_uuid_mux.md. -/

open Sys2Proof Sys2Proof.Machine

/-- Settles O32: both sides are the byte steps and the close on ENC's own registers; the example's tokens are computed. -/
theorem umxIdIsTheBurst : Obligations.UmxIdIsTheBurst := by
  unfold Obligations.UmxIdIsTheBurst
  refine ⟨?_, ?_, ?_⟩
  · intro s id p hlegal
    have hclose := State.onEnc_of_legal (State.encBytes_legal hlegal (reorder id s.hostLe).toList) State.encEnd
    obtain ⟨-, hframe⟩ := s.umxId_frame id
    exact ⟨s.umxId id, exec_umxId_of_legal hlegal id, execAll_encBytes_append hlegal _ hclose, hframe⟩
  · intro s id henc
    exact ⟨_, identifierToBase32_length id s.hostLe, exec_umxId_emits_identifierToBase32 henc id⟩
  · intro s henc hle
    rw [exec_umxId_of_reset henc, hle]
    have htokens : encodeTokens (reorder #v[0x33, 0x22, 0x11, 0x00, 0x55, 0x44, 0x77, 0x66, 0x88, 0x99, 0xAA, 0xBB, 0xCC, 0xDD,
        0xEE, 0xFF] true).toList false =
        [0x41, 0x41, 0x49, 0x53, 0x45, 0x4D, 0x32, 0x45, 0x4B, 0x56, 0x54, 0x48, 0x50, 0x43, 0x45, 0x5A, 0x56, 0x4B, 0x35,
          0x34, 0x5A, 0x58, 0x50, 0x4F, 0x37, 0x34].map EncOut.char ++ [.eom] := by decide
    rw [htokens]

/-- Settles O33: the burst from ENC's reset state is the unpadded message of the reordered bytes. -/
theorem umxIdRefinesIdentifierToBase32 : Obligations.UmxIdRefinesIdentifierToBase32 := by
  unfold Obligations.UmxIdRefinesIdentifierToBase32
  intro s id henc
  exact ⟨rfl, exec_umxId_emits_identifierToBase32 henc id⟩

/-- Settles O34: the message's bytes and the identifier's are one run of bytes, so its tokens are `Encode` of them all. -/
theorem umxIdInsideAnOpenMessage : Obligations.UmxIdInsideAnOpenMessage := by
  unfold Obligations.UmxIdInsideAnOpenMessage
  intro s bs id henc
  have hlegal : s.enc.legal = true := henc ▸ EncRegs.reset_legal
  rw [execAll_encBytes_append hlegal bs (exec_umxId_of_legal (State.encBytes_legal hlegal bs) id), State.encBytes_umxId,
    State.encBytes_encEnd henc]

/-- Settles O36: strings agree when the reordered identifiers do, and each strap's reorder undoes itself; the identifier already
reordered gives with strap 0 what the identifier gives with strap 1. -/
theorem identifierStringsAreDistinct : Obligations.IdentifierStringsAreDistinct := by
  unfold Obligations.IdentifierStringsAreDistinct
  refine ⟨?_, ?_, ?_⟩
  · intro id id' le hne heq
    exact hne ((reorder_involutive le).injective ((identifierToBase32_eq_iff id id' le le).1 heq))
  · intro id
    rw [identifierToBase32_eq_iff, reorder_false, reorder_true_eq_self_iff]
  · intro id
    exact ⟨reorder id true, (identifierToBase32_eq_iff _ _ _ _).2 (reorder_false (reorder id true))⟩

/-- Settles O30: with strap 1 the lanes are exchanged, with strap 0 the identifier passes through. -/
theorem reorderBytes : Obligations.ReorderBytes := by
  unfold Obligations.ReorderBytes
  intro id
  exact ⟨reorder_true id, reorder_false id⟩

end

