-- ==== Sys2Proof/Proofs/CodecLaws.lean ====
section
/-! SUPPORT. What an encoding is made of, symbols of the alphabet and then pads (R100, R155), and which strings `Decode` accepts: those
whose stripped part is symbols, whose values it assembles (R120, R162). -/

namespace Sys2Proof.Codec

open Sys2Proof.Machine

/-! ## Encodings -/

/-- Every entry of the alphabet table is a symbol's code (R76). -/
theorem symbolCode_alpha : ∀ v : Group, symbolCode (alpha v) = true := by decide

theorem symbolCode_of_mem_encode_unpadded {bs : List Byte} {c : Code} (h : c ∈ encode bs false) : symbolCode c = true := by
  obtain ⟨v, -, rfl⟩ := List.mem_map.1 h
  exact symbolCode_alpha v

/-- The padded encoding is the unpadded one and the pads that fill its last block (R100). -/
theorem encode_padded_eq (bs : List Byte) :
    encode bs true = encode bs false ++ List.replicate ((8 - (encode bs false).length % 8) % 8) padCode := rfl

theorem take_encode_padded (bs : List Byte) : (encode bs true).take ((8 * bs.length + 4) / 5) = encode bs false := by
  rw [encode_padded_eq, List.take_left' (encode_unpadded_length bs)]

theorem drop_encode_padded (bs : List Byte) :
    (encode bs true).drop ((8 * bs.length + 4) / 5) = List.replicate ((8 - (encode bs false).length % 8) % 8) padCode := by
  rw [encode_padded_eq, List.drop_left' (encode_unpadded_length bs)]

/-! ## Decodings -/

@[simp] theorem assemble_length (gs : List Group) : (assemble gs).length = 5 * gs.length / 8 := by simp [assemble]

/-- An accepted string is symbols once stripped, and its bytes are those of their values (R120). -/
theorem exists_spells_of_decode_eq_bytes {cs : List Code} {d : List Byte} (h : decode cs = .bytes d) :
    ∃ vs, Spells (strip cs) vs ∧ d = assemble vs := by
  cases messageShape cs with
  | @whole xs vs k hxs =>
    rw [decode_whole hxs] at h
    exact ⟨vs, by rwa [strip_append_pads, hxs.strip], (DecodeResult.bytes.inj h).symm⟩
  | foreign rest hxs hc => simp [decode_foreign hxs hc] at h
  | brokenRun k rest hxs hc => simp [decode_brokenRun hxs hc] at h

/-- `Decode` sees its string only through the strip (R120, R121). -/
theorem decode_append_pads (cs : List Code) (k : Nat) : decode (cs ++ List.replicate k padCode) = decode cs := by
  rw [decode, strip_append_pads, decode]

end Sys2Proof.Codec
end

