-- ==== Sys2Proof/Proofs/Laws.lean ====
section
/-! The settled statements of 43_laws.md. -/

open Sys2Proof Sys2Proof.Machine

/-- Settles O38: the first `ceil(8N/5)` characters of a padded encoding are the unpadded one, which is the alphabet's entries at the
groups; after them stand the pads. -/
theorem alphabetClosure : Obligations.AlphabetClosure := by
  unfold Obligations.AlphabetClosure
  intro bs
  refine ⟨?_, ?_, ?_⟩
  · intro c hc
    exact Codec.symbolCode_of_mem_encode_unpadded hc
  · intro c hc
    rw [Codec.take_encode_padded] at hc
    exact Codec.symbolCode_of_mem_encode_unpadded hc
  · intro c hc
    rw [Codec.drop_encode_padded] at hc
    exact List.eq_of_mem_replicate hc

/-- Settles O39: the groups' bits are the bytes' bits and a fill too short for a byte, and the pads are stripped. -/
theorem decodeOfEncodeIsTheBytes : Obligations.DecodeOfEncodeIsTheBytes := by
  unfold Obligations.DecodeOfEncodeIsTheBytes
  intro bs
  exact ⟨Codec.decode_encode_eq_bytes bs false, Codec.decode_encode_eq_bytes bs true⟩

/-- Settles O42: an accepted string's bytes are assembled from one group per character left by the strip, which no number of trailing
`'='` changes. -/
theorem decodeLengthAndLeniency : Obligations.DecodeLengthAndLeniency := by
  unfold Obligations.DecodeLengthAndLeniency
  refine ⟨?_, Codec.decode_append_pads, Codec.decode_append_pads []⟩
  intro cs d h
  obtain ⟨vs, hspells, rfl⟩ := Codec.exists_spells_of_decode_eq_bytes h
  rw [Codec.assemble_length, hspells.length_eq]

/-- Settles O46: each vector is computed. -/
theorem sourceVectors : Obligations.SourceVectors := by
  unfold Obligations.SourceVectors
  decide

end

