-- ==== Sys2Proof/Proofs/Raise.lean ====
section
/-! SUPPORT. All a completed instruction can do about InvalidSymbol: raise it with the report the rules name, or leave `d_err` unset and
emit no ERR (R170, R172, R173). -/

namespace Sys2Proof.Machine

/-- The character and position a raise on `c` reports: the first `'='` of the open run, or else `c` itself (R125, R127, R128). -/
def DecRegs.report (r : DecRegs) (c : Code) : Code × Nat := if r.dPad then (padCode, r.dPadpos) else (c, r.dPos)

theorem DecRegs.report_of_padRun {r : DecRegs} (h : r.dPad = true) (c : Code) : r.report c = (padCode, r.dPadpos) := if_pos h

theorem DecRegs.report_of_noRun {r : DecRegs} (h : r.dPad = false) (c : Code) : r.report c = (c, r.dPos) := by
  simp [DecRegs.report, h]

/-- From `s` to `t` nothing was raised: `d_err` was not newly set, and what `DEC_OUT` gained is not a report. -/
structure RaisesNothing (s t : State) : Prop where
  dErr : t.dec.dErr = true → s.dec.dErr = true
  decOut : ∀ (c : Code) (p : Nat), t.decOut ≠ s.decOut ++ [.err c p]

/-- A step that emits `ds`, which is no report, and does not set `d_err` raises nothing. -/
theorem RaisesNothing.of_emits {s t : State} {ds : List DecOut} (hout : t.decOut = s.decOut ++ ds)
    (hds : ∀ (c : Code) (p : Nat), ds ≠ [.err c p]) (herr : t.dec.dErr = true → s.dec.dErr = true) : RaisesNothing s t where
  dErr := herr
  decOut c p h := hds c p (List.append_cancel_left (hout.symm.trans h))

/-- A step that leaves `DEC_OUT` alone and does not set `d_err` raises nothing. -/
theorem RaisesNothing.of_silent {s t : State} (hout : t.decOut = s.decOut) (herr : t.dec.dErr = true → s.dec.dErr = true) :
    RaisesNothing s t :=
  .of_emits (ds := []) (by simp [hout]) (by simp) herr

theorem ChangesOnlyEnc.raisesNothing {s t : State} (h : ChangesOnlyEnc s t) : RaisesNothing s t :=
  .of_silent h.decOut fun herr => h.dec ▸ herr

theorem State.closeDec_raisesNothing (s : State) : RaisesNothing s s.closeDec :=
  .of_emits s.closeDec_decOut (by simp) (by simp [DecRegs.reset])

/-- What a symbol emits is a byte or nothing (R124). -/
theorem DecRegs.symBytes_ne_err (r : DecRegs) (v : Group) (c : Code) (p : Nat) : r.symBytes v ≠ [.err c p] := by
  unfold DecRegs.symBytes
  by_cases h : r.dN.val + 5 ≥ 8
  · simp [h]
  · simp [h]

/-- DEC.CHAR raises, outside mode ERROR only and with the report of its registers, or raises nothing (R172). -/
theorem State.decChar_raises_or_not (c : Code) (s : State) :
    (s.dec.dErr = false ∧ s.decChar c = s.raiseInvalidSymbol (s.dec.report c).1 (s.dec.report c).2) ∨
    RaisesNothing s (s.decChar c) := by
  obtain ⟨-, h⟩ | ⟨v, -, -, -, h⟩ | ⟨-, -, h⟩ | ⟨herr, hpad, -, h⟩ | ⟨herr, hpad, -, h⟩ := s.decChar_cases c <;> rw [h]
  · exact .inr (.of_silent rfl id)
  · exact .inr (.of_emits (s.decSymbol_decOut v) (s.dec.symBytes_ne_err v) id)
  · exact .inr (.of_silent s.decPad_decOut id)
  · exact .inl ⟨herr, by rw [DecRegs.report_of_noRun hpad]⟩
  · exact .inl ⟨herr, by rw [DecRegs.report_of_padRun hpad]⟩

/-- An instruction that completes is a DEC.CHAR that raises, outside mode ERROR, or it raises nothing (R170, R172). -/
theorem exec_raises_or_not {i : Instr} {s t : State} (h : exec i s = .next t) :
    (∃ c, i = .decChar c ∧ s.dec.dErr = false ∧ t = s.raiseInvalidSymbol (s.dec.report c).1 (s.dec.report c).2) ∨
    RaisesNothing s t := by
  obtain ⟨b, -, -, rfl⟩ | ⟨p, -, -, rfl⟩ | ⟨p, -, -, rfl⟩ | ⟨c, rfl, -, rfl⟩ | ⟨p, -, -, rfl⟩ | ⟨id, -, -, rfl⟩ :=
    exec_next_cases h
  · exact .inr (s.encByte_changesOnlyEnc b).raisesNothing
  · exact .inr s.encEnd_changesOnlyEnc.raisesNothing
  · exact .inr s.encEndp_changesOnlyEnc.raisesNothing
  · obtain ⟨herr, hraise⟩ | hnone := s.decChar_raises_or_not c
    · exact .inl ⟨c, rfl, herr, hraise⟩
    · exact .inr hnone
  · exact .inr s.closeDec_raisesNothing
  · exact .inr (s.umxId_changesOnlyEnc id).raisesNothing

end Sys2Proof.Machine
end

