-- ==== Sys2Proof/Proofs/Exceptions.lean ====
section
/-! The settled statements of 60_exceptions.md. -/

open Sys2Proof Sys2Proof.Machine

/-- Settles O28: an instruction that completes is a DEC.CHAR whose raise is its whole effect, or it neither emits an ERR nor sets
`d_err`; and a raise emits one token, so the ERR emitted is its report. -/
theorem raiseIsPreciseAndReported : Obligations.RaiseIsPreciseAndReported := by
  unfold Obligations.RaiseIsPreciseAndReported
  refine ⟨?_, ?_⟩
  · intro i s t c' p hexec hout
    obtain ⟨c, hi, herr, rfl⟩ | hnone := exec_raises_or_not hexec
    · have hreport : s.dec.report c = (c', p) := by simpa [Prod.ext_iff] using hout
      refine ⟨c, hi, herr, hreport.symm, ?_⟩
      rw [hreport]
      rfl
    · exact absurd hout (hnone.decOut c' p)
  · intro i s t hexec herr hset
    obtain ⟨c, -, -, rfl⟩ | hnone := exec_raises_or_not hexec
    · exact ⟨(s.dec.report c).1, (s.dec.report c).2, rfl⟩
    · simp [hnone.dErr hset] at herr

end

