-- ==== Sys2Proof/Proofs/OutputCounts.lean ====
section
/-! SUPPORT. How many tokens each step appends to its unit's stream (R108, R131, R199). -/

namespace Sys2Proof.Machine

/-- One symbol for a byte, two when the residue fills a second group (R102). -/
theorem State.encByte_encOut_length (b : Byte) (s : State) :
    (s.encByte b).encOut.length = s.encOut.length + if s.enc.eN.val ≥ 2 then 2 else 1 := by
  rw [State.encByte_encOut, List.length_append, charsOf_length, EncRegs.byteGroups_length]

/-- The flushed symbol, if a residue is held, and EOM (R104). -/
theorem State.encEnd_encOut_length (s : State) :
    s.encEnd.encOut.length = s.encOut.length + ((if s.enc.eN.val > 0 then 1 else 0) + 1) := by
  rw [State.encEnd_encOut, List.length_append, List.length_append, charsOf_length, EncRegs.flushGroups_length, List.length_singleton]

/-- The flushed symbol, if a residue is held, the pads and EOM (R106). -/
theorem State.encEndp_encOut_length (s : State) :
    s.encEndp.encOut.length = s.encOut.length + ((if s.enc.eN.val > 0 then 1 else 0) + s.enc.padding.length + 1) := by
  rw [State.encEndp_encOut, List.length_append, List.length_append, List.length_append, charsOf_length, EncRegs.flushGroups_length,
    List.length_singleton]

/-- A message whose counters are one of R23's pairs takes six pads at most (R107). -/
theorem EncRegs.padding_length_le {r : EncRegs} (h : r.paired = true) : r.padding.length ≤ 6 := by
  have hsmall : ∀ n ∈ [0, 1, 3, 4, 6], n ≤ 6 := by decide
  rw [EncRegs.padding_eq, List.length_replicate]
  exact hsmall _ (EncRegs.padCount_of_paired h)

/-- A character makes DEC emit one token at most: a symbol's byte, or the report of a raise (R131). -/
theorem State.decChar_decOut_length_le (c : Code) (s : State) : (s.decChar c).decOut.length ≤ s.decOut.length + 1 := by
  obtain ⟨-, h⟩ | ⟨v, -, -, -, h⟩ | ⟨-, -, h⟩ | ⟨-, -, -, h⟩ | ⟨-, -, -, h⟩ := s.decChar_cases c <;> rw [h]
  · exact Nat.le_succ _
  · rw [State.decSymbol_decOut, List.length_append, DecRegs.symBytes_length]
    split <;> omega
  · exact Nat.le_succ _
  · simp
  · simp

theorem State.enc_paired_of_inv {s : State} (h : s.inv = true) : s.enc.paired = true := by
  simp only [State.inv, Bool.and_eq_true] at h
  obtain ⟨⟨-, hpaired⟩, -⟩ := h
  exact hpaired

/-- An ENC step that completes gives the state its function gives. -/
theorem State.eq_of_onEnc_next {s t : State} {f : State → State} (h : s.onEnc f = .next t) : t = f s :=
  ((s.onEnc_next_iff t f).1 h).2

end Sys2Proof.Machine
end

