-- ==== Sys2Proof/Proofs/Positions.lean ====
section
/-! SUPPORT. States that differ in the positions and `POSW` only: what they share is the state with the positions forgotten, and a step's
effect on that is a function of it (R200). -/

namespace Sys2Proof.Machine

/-- `s` with the positions forgotten: DEC's two, those reported so far, and their width. -/
def State.forgetPositions (s : State) : State :=
  { s with posw := 0, dec := s.dec.forgetPos, decOut := s.decOut.map forgetTokenPos }

/-- Two states agree when their positions are forgotten exactly when they agree in everything else. -/
theorem State.forgetPositions_eq_iff (s' s : State) :
    s'.forgetPositions = s.forgetPositions ↔
      s'.enc = s.enc ∧ s'.hostLe = s.hostLe ∧ s'.input = s.input ∧ s'.encOut = s.encOut ∧
        s'.dec.forgetPos = s.dec.forgetPos ∧ s'.decOut.map forgetTokenPos = s.decOut.map forgetTokenPos := by
  simp only [State.forgetPositions, State.mk.injEq, true_and]
  constructor
  · rintro ⟨henc, hdec, hle, hinput, hencOut, hdecOut⟩
    exact ⟨henc, hle, hinput, hencOut, hdec, hdecOut⟩
  · rintro ⟨henc, hle, hinput, hencOut, hdec, hdecOut⟩
    exact ⟨henc, hdec, hle, hinput, hencOut, hdecOut⟩

/-! ## ENC's side -/

/-- The positions are hidden from ENC. -/
theorem State.forgetPositions_hiddenFromEnc : HiddenFromEnc State.forgetPositions :=
  ⟨fun _ => rfl, fun _ _ => rfl, fun _ _ => rfl⟩

/-- An instruction of ENC's side that completes in `s` completes in a state that differs from `s` in positions only, and the
next states differ in positions only. -/
theorem exec_forgetPositions_of_onEncSide {i : Instr} (hi : onEncSide i = true) {s s' t : State}
    (hs : s'.forgetPositions = s.forgetPositions) (h : exec i s = .next t) :
    ∃ t', exec i s' = .next t' ∧ t'.forgetPositions = t.forgetPositions := by
  have hcomm (u : State) : exec i u.forgetPositions = mapNext State.forgetPositions (exec i u) :=
    exec_hidden_of_onEncSide State.forgetPositions_hiddenFromEnc (fun _ => rfl) hi u
  rw [← mapNext_eq_next_iff, ← hcomm, hs, hcomm, h, mapNext_next]

/-! ## DEC's side -/

theorem forgetTokenPos_forgetTokenPos (d : DecOut) : forgetTokenPos (forgetTokenPos d) = forgetTokenPos d := by
  cases d <;> rfl

/-- Forgetting the positions passes through DEC's write to its registers. -/
theorem State.forgetPositions_setDec (r : DecRegs) (s : State) :
    (s.setDec r).forgetPositions = s.forgetPositions.setDec r.forgetPos := rfl

/-- Forgetting the positions passes through DEC's write to its stream. -/
theorem State.forgetPositions_emitDec (ts : List DecOut) (s : State) :
    (s.emitDec ts).forgetPositions = s.forgetPositions.emitDec (ts.map forgetTokenPos) := by
  simp [State.forgetPositions, State.emitDec]

theorem State.forgetPositions_forgetPositions (s : State) : s.forgetPositions.forgetPositions = s.forgetPositions := by
  simp [State.forgetPositions, DecRegs.forgetPos, Function.comp_def, forgetTokenPos_forgetTokenPos]

/-- `f` neither reads the positions nor lets them reach anything else. -/
def BlindToPositions (f : State → State) : Prop := ∀ s : State, (f s.forgetPositions).forgetPositions = (f s).forgetPositions

/-- Such a step keeps two states that differ in positions only so. -/
theorem BlindToPositions.congr {f : State → State} (hf : BlindToPositions f) {s s' : State}
    (hs : s'.forgetPositions = s.forgetPositions) : (f s').forgetPositions = (f s).forgetPositions := by
  rw [← hf s', hs, hf s]

theorem decSymbol_blindToPositions (v : Group) : BlindToPositions (State.decSymbol v) := by
  intro s
  simp only [State.decSymbol, State.forgetPositions_emitDec, State.forgetPositions_setDec, State.forgetPositions_forgetPositions]
  rfl

theorem decPad_blindToPositions : BlindToPositions State.decPad := by
  intro s
  simp only [State.decPad, State.forgetPositions_setDec, State.forgetPositions_forgetPositions]
  rfl

/-- The position a raise reports is forgotten, whatever it is. -/
theorem State.forgetPositions_raiseInvalidSymbol (c : Code) (p q : Nat) (s : State) :
    (s.forgetPositions.raiseInvalidSymbol c p).forgetPositions = (s.raiseInvalidSymbol c q).forgetPositions := by
  simp only [State.raiseInvalidSymbol, State.forgetPositions_emitDec, State.forgetPositions_setDec,
    State.forgetPositions_forgetPositions]
  rfl

/-- DEC.CHAR picks its arm by the flags, and each arm is blind to the positions but for the one it reports. -/
theorem decChar_blindToPositions (c : Code) : BlindToPositions (State.decChar c) := by
  intro s
  have hmode : s.forgetPositions.dec.mode = s.dec.mode := rfl
  unfold State.decChar
  rw [hmode]
  split
  · exact s.forgetPositions_forgetPositions
  · exact decSymbol_blindToPositions _ s
  · exact decPad_blindToPositions s
  · exact State.forgetPositions_raiseInvalidSymbol _ _ _ s
  · exact decPad_blindToPositions s
  · exact State.forgetPositions_raiseInvalidSymbol _ _ _ s
  · exact State.forgetPositions_raiseInvalidSymbol _ _ _ s

theorem closeDec_blindToPositions : BlindToPositions State.closeDec := by
  intro s
  simp only [State.closeDec, State.forgetPositions_emitDec, State.forgetPositions_setDec, State.forgetPositions_forgetPositions]
  rfl

/-! ## The block -/

/-- An instruction that completes in `s` completes in a state that differs from `s` in positions only, if DEC's registers are legal
there, and the next states differ in positions only. -/
theorem exec_forgetPositions {i : Instr} {s s' t : State} (hs : s'.forgetPositions = s.forgetPositions)
    (hlegal : s'.dec.legal s'.posw = true) (h : exec i s = .next t) :
    ∃ t', exec i s' = .next t' ∧ t'.forgetPositions = t.forgetPositions := by
  obtain ⟨b, rfl, -, -⟩ | ⟨p, rfl, -, -⟩ | ⟨p, rfl, -, -⟩ | ⟨c, rfl, -, rfl⟩ | ⟨p, rfl, -, rfl⟩ | ⟨id, rfl, -, -⟩ :=
    exec_next_cases h
  · exact exec_forgetPositions_of_onEncSide rfl hs h
  · exact exec_forgetPositions_of_onEncSide rfl hs h
  · exact exec_forgetPositions_of_onEncSide rfl hs h
  · exact ⟨s'.decChar c, exec_decChar_of_legal hlegal c, (decChar_blindToPositions c).congr hs⟩
  · exact ⟨s'.closeDec, State.onDec_of_legal hlegal _, closeDec_blindToPositions.congr hs⟩
  · exact exec_forgetPositions_of_onEncSide rfl hs h

end Sys2Proof.Machine
end

