-- ==== Sys2Proof/Proofs/ResetAndHazards.lean ====
section
/-! The settled statements of 70_reset_and_hazards.md. -/

open Sys2Proof Sys2Proof.Machine

/-- Settles O55: the tokens of each step are counted; the invariant bounds the pads, and the burst from reset is 26 characters and
EOM. -/
theorem outputTokensPerStep : Obligations.OutputTokensPerStep := by
  unfold Obligations.OutputTokensPerStep
  intro i s t hinv hexec
  refine ⟨?_, ?_, ?_, ?_, ?_, ?_⟩
  · rintro b rfl
    rw [State.eq_of_onEnc_next hexec, State.encByte_encOut_length]
    split <;> omega
  · rintro p rfl
    rw [State.eq_of_onEnc_next hexec, State.encEnd_encOut_length]
    split <;> omega
  · rintro p rfl
    have hpads := EncRegs.padding_length_le (State.enc_paired_of_inv hinv)
    rw [State.eq_of_onEnc_next hexec, State.encEndp_encOut_length]
    split <;> omega
  · rintro c rfl
    rw [exec_decChar_next hexec]
    exact s.decChar_decOut_length_le c
  · rintro p rfl
    rw [exec_decEnd_next hexec, State.closeDec_decOut, List.length_append, List.length_singleton]
  · rintro id rfl henc
    rw [exec_umxId_emits_identifierToBase32 henc] at hexec
    cases hexec
    simp [identifierToBase32_length]

/-- Settles O58: agreeing but for the positions is having one state when they are forgotten, and every instruction keeps that. -/
theorem positionsReachOnlyTheReport : Obligations.PositionsReachOnlyTheReport := by
  unfold Obligations.PositionsReachOnlyTheReport
  intro i s s' t henc hle hinput hencOut hdec hdecOut hlegal hexec
  have hs := (State.forgetPositions_eq_iff s' s).2 ⟨henc, hle, hinput, hencOut, hdec, hdecOut⟩
  obtain ⟨t', hexec', ht⟩ := exec_forgetPositions hs hlegal hexec
  exact ⟨t', hexec', (State.forgetPositions_eq_iff t' t).1 ht⟩

/-- Settles O12: the action is dropped with its coincident tokens, and the registers take their reset values. -/
theorem resetEventClearsTheRegisters : Obligations.ResetEventClearsTheRegisters := by
  unfold Obligations.ResetEventClearsTheRegisters
  intro s coincident rest hin
  have hdrop : s.dropAction = { s with input := rest } := by simp [State.dropAction, hin]
  rw [step_of_input_reset hin, hdrop]
  rfl

end

