-- ==== Sys2Proof/Proofs/Registers.lean ====
section
/-! SUPPORT. What a step leaves in the registers: the bounds and counter pairs of the invariant (R22 to R25), and the reset values in a
unit whose message is closed (R35, R204). -/

namespace Sys2Proof.Machine

/-! ## The invariant's parts -/

theorem State.inv_iff (s : State) :
    s.inv = true ↔ 1 ≤ s.posw ∧ s.enc.legal = true ∧ s.enc.paired = true ∧ s.dec.legal s.posw = true := by
  simp [State.inv, and_assoc]

theorem EncRegs.paired_iff (r : EncRegs) : r.paired = true ↔ (r.eN.val, r.eSym8.val) ∈ encPairs := List.contains_iff_mem

@[simp] theorem EncRegs.reset_paired : EncRegs.reset.paired = true := by decide

/-- A byte takes each of the five counter pairs to the next one (R23, R102). -/
theorem EncRegs.afterByte_paired {r : EncRegs} (h : r.paired = true) (b : Byte) : (r.afterByte b).paired = true := by
  have hnext : ∀ q ∈ encPairs,
      (if q.1 + 8 ≥ 10 then q.1 + 8 - 10 else q.1 + 8 - 5, (q.2 + if q.1 + 8 ≥ 10 then 2 else 1) % 8) ∈ encPairs := by decide
  rw [EncRegs.paired_iff] at h ⊢
  rw [EncRegs.afterByte_eN_val, EncRegs.afterByte_eSym8_count]
  exact hnext _ h

/-! ## Instructions -/

/-- What an instruction that completes makes of ENC's registers, and whether it leaves ENC's message open: they are as they were, a byte
went in, or the message was closed (R102, R104, R106, R143). -/
theorem exec_enc_cases {i : Instr} {s t : State} (h : exec i s = .next t) :
    (t.enc = s.enc ∧ ∀ o, encOpenAfter i o = o) ∨
    (∃ b, t.enc = s.enc.afterByte b ∧ ∀ o, encOpenAfter i o = true) ∨
    t.enc = EncRegs.reset := by
  obtain ⟨b, rfl, -, rfl⟩ | ⟨p, rfl, -, rfl⟩ | ⟨p, rfl, -, rfl⟩ | ⟨c, rfl, -, rfl⟩ | ⟨p, rfl, -, rfl⟩ | ⟨id, rfl, -, rfl⟩ :=
    exec_next_cases h
  · exact .inr (.inl ⟨b, s.encByte_enc b, fun _ => rfl⟩)
  · exact .inr (.inr s.encEnd_enc)
  · exact .inr (.inr s.encEndp_enc)
  · exact .inl ⟨(s.decChar_changesOnlyDec c).enc, fun _ => rfl⟩
  · exact .inl ⟨s.closeDec_enc, fun _ => rfl⟩
  · exact .inr (.inr (s.umxId_frame id).1)

/-- What an instruction that completes makes of DEC's registers, and whether it leaves DEC's message open: they are as they were, a
character went in, or the message was closed (R123, R130). -/
theorem exec_dec_cases {i : Instr} {s t : State} (h : exec i s = .next t) :
    (t.dec = s.dec ∧ ∀ o, decOpenAfter i o = o) ∨
    (∃ c, t.dec = (s.decChar c).dec ∧ ∀ o, decOpenAfter i o = true) ∨
    t.dec = DecRegs.reset := by
  obtain ⟨b, rfl, -, rfl⟩ | ⟨p, rfl, -, rfl⟩ | ⟨p, rfl, -, rfl⟩ | ⟨c, rfl, -, rfl⟩ | ⟨p, rfl, -, rfl⟩ | ⟨id, rfl, -, rfl⟩ :=
    exec_next_cases h
  · exact .inl ⟨s.encByte_dec b, fun _ => rfl⟩
  · exact .inl ⟨s.encEnd_dec, fun _ => rfl⟩
  · exact .inl ⟨s.encEndp_dec, fun _ => rfl⟩
  · exact .inr (.inl ⟨c, rfl, fun _ => rfl⟩)
  · exact .inr (.inr s.closeDec_dec)
  · exact .inl ⟨(s.umxId_changesOnlyEnc id).dec, fun _ => rfl⟩

theorem exec_posw {i : Instr} {s t : State} (h : exec i s = .next t) : t.posw = s.posw := by
  obtain ⟨-, -, ht⟩ | ⟨-, -, ht⟩ := exec_changes_one_side h
  · exact ht.posw
  · exact ht.posw

theorem exec_input {i : Instr} {s t : State} (h : exec i s = .next t) : t.input = s.input := by
  obtain ⟨-, -, ht⟩ | ⟨-, -, ht⟩ := exec_changes_one_side h
  · exact ht.input
  · exact ht.input

section Exec

variable {i : Instr} {s t : State} (h : exec i s = .next t)
include h

theorem exec_enc_legal (hs : s.enc.legal = true) : t.enc.legal = true := by
  obtain ⟨henc, -⟩ | ⟨b, henc, -⟩ | henc := exec_enc_cases h <;> rw [henc]
  · exact hs
  · exact s.enc.afterByte_legal b
  · exact EncRegs.reset_legal

theorem exec_enc_paired (hs : s.enc.paired = true) : t.enc.paired = true := by
  obtain ⟨henc, -⟩ | ⟨b, henc, -⟩ | henc := exec_enc_cases h <;> rw [henc]
  · exact hs
  · exact EncRegs.afterByte_paired hs b
  · exact EncRegs.reset_paired

theorem exec_dec_legal (hs : s.dec.legal s.posw = true) : t.dec.legal t.posw = true := by
  rw [exec_posw h]
  obtain ⟨hdec, -⟩ | ⟨c, hdec, -⟩ | hdec := exec_dec_cases h <;> rw [hdec]
  · exact hs
  · exact State.decChar_legal hs c
  · exact DecRegs.reset_legal s.posw

/-- An instruction that completes keeps the register invariant. -/
theorem exec_inv (hs : s.inv = true) : t.inv = true := by
  obtain ⟨hposw, henc, hpaired, hdec⟩ := s.inv_iff.1 hs
  exact t.inv_iff.2 ⟨(exec_posw h).symm ▸ hposw, exec_enc_legal h henc, exec_enc_paired h hpaired, exec_dec_legal h hdec⟩

/-- ENC's registers are at their reset values whenever its message is closed, if they were so before (R35, R204). -/
theorem exec_enc_eq_reset_of_closed {o : Bool} (hs : o = false → s.enc = EncRegs.reset) (hclosed : encOpenAfter i o = false) :
    t.enc = EncRegs.reset := by
  obtain ⟨henc, hopen⟩ | ⟨b, -, hopen⟩ | henc := exec_enc_cases h
  · rw [henc, hs ((hopen o).symm.trans hclosed)]
  · rw [hopen o] at hclosed
    cases hclosed
  · exact henc

/-- DEC's registers are at their reset values whenever its message is closed, if they were so before (R35, R204). -/
theorem exec_dec_eq_reset_of_closed {o : Bool} (hs : o = false → s.dec = DecRegs.reset) (hclosed : decOpenAfter i o = false) :
    t.dec = DecRegs.reset := by
  obtain ⟨hdec, hopen⟩ | ⟨c, -, hopen⟩ | hdec := exec_dec_cases h
  · rw [hdec, hs ((hopen o).symm.trans hclosed)]
  · rw [hopen o] at hclosed
    cases hclosed
  · exact hdec

end Exec

/-- Reset puts the registers where the invariant holds, whatever they were (R190). -/
theorem State.takeReset_inv {s : State} (h : s.inv = true) : s.takeReset.inv = true := by
  obtain ⟨hposw, -, -, -⟩ := s.inv_iff.1 h
  exact s.takeReset.inv_iff.2 ⟨hposw, EncRegs.reset_legal, EncRegs.reset_paired, DecRegs.reset_legal s.posw⟩

end Sys2Proof.Machine
end

