-- ==== Sys2Proof/Proofs/RegisterInvariant.lean ====
section
/-! The settled statements about the register invariant. -/

open Sys2Proof Sys2Proof.Machine

/-- Settles O47: an instruction keeps each part of the invariant, reset establishes it, and the other actions touch no register. -/
theorem stepKeepsTheRegisterInvariant : Obligations.StepKeepsTheRegisterInvariant := by
  unfold Obligations.StepKeepsTheRegisterInvariant
  intro s t hinv hstep
  obtain ⟨-, rfl⟩ | ⟨w, rest, -, hexec⟩ | ⟨cs, rest, -, rfl⟩ | ⟨b, rest, -, rfl⟩ := step_next_cases hstep
  · exact hinv
  · exact exec_inv (s := s.dropAction) hexec hinv
  · exact State.takeReset_inv (s := s.dropAction) hinv
  · exact hinv

/-- Settles O48: the reset registers are legal and paired, and the default width is positive. -/
theorem resetHasTheRegisterInvariant : Obligations.ResetHasTheRegisterInvariant := by
  unfold Obligations.ResetHasTheRegisterInvariant
  exact State.reset.inv_iff.2 ⟨by decide, EncRegs.reset_legal, EncRegs.reset_paired, DecRegs.reset_legal _⟩

end

