-- ==== Sys2Proof/Proofs/CompleteRuns.lean ====
section
/-! SUPPORT. Runs of the host's actions: with which registers they go on and end, by whether messages are open (R191, R204). -/

namespace Sys2Proof.Machine

/-- The registers are legal, and those of a unit without an open message (ENC's by `o.1`, DEC's by `o.2`) are at their reset values. -/
structure AgreesWithOpen (o : Bool × Bool) (s : State) : Prop where
  encLegal : s.enc.legal = true
  decLegal : s.dec.legal s.posw = true
  enc : o.1 = false → s.enc = EncRegs.reset
  dec : o.2 = false → s.dec = DecRegs.reset

theorem agreesWithOpen_of_reset {s : State} (henc : s.enc = EncRegs.reset) (hdec : s.dec = DecRegs.reset) (o : Bool × Bool) :
    AgreesWithOpen o s :=
  ⟨henc ▸ EncRegs.reset_legal, hdec ▸ DecRegs.reset_legal s.posw, fun _ => henc, fun _ => hdec⟩

theorem AgreesWithOpen.exec {o : Bool × Bool} {i : Instr} {s t : State} (h : AgreesWithOpen o s) (hexec : exec i s = .next t) :
    AgreesWithOpen (encOpenAfter i o.1, decOpenAfter i o.2) t :=
  ⟨exec_enc_legal hexec h.encLegal, exec_dec_legal hexec h.decLegal, exec_enc_eq_reset_of_closed hexec h.enc,
    exec_dec_eq_reset_of_closed hexec h.dec⟩

theorem wellFormed_of_neverReserved {w : PortWord} {as : List HostAction} (h : neverReserved (.token w :: as) = true) :
    (decode w).wellFormed = true := by
  simp only [neverReserved, List.all_cons, Bool.and_eq_true] at h
  exact h.1

theorem neverReserved_tail {a : HostAction} {as : List HostAction} (h : neverReserved (a :: as) = true) : neverReserved as = true := by
  simp only [neverReserved, List.all_cons, Bool.and_eq_true] at h
  exact h.2

/-- One action: the step is taken, the action is off the input, and the registers agree with the messages open after it. -/
theorem AgreesWithOpen.step {o : Bool × Bool} {s : State} {a : HostAction} {as : List HostAction} (h : AgreesWithOpen o s)
    (hin : s.input = a :: as) (hnever : neverReserved (a :: as) = true) :
    ∃ (t : State) (o' : Bool × Bool), step s = .next t ∧ t.input = as ∧ AgreesWithOpen o' t ∧
      openAfter (a :: as) o = openAfter as o' := by
  cases a with
  | token w =>
    obtain ⟨t, hexec⟩ | ⟨hreserved, -⟩ := exec_of_legal (s := { s with input := as }) h.encLegal h.decLegal (decode w)
    · have hs : AgreesWithOpen o { s with input := as } := ⟨h.encLegal, h.decLegal, h.enc, h.dec⟩
      exact ⟨t, _, by rw [step_of_input_token hin, hexec], exec_input hexec, hs.exec hexec, rfl⟩
    · rw [wellFormed_of_neverReserved hnever] at hreserved
      cases hreserved
  | reset cs =>
    exact ⟨s.dropAction.takeReset, (false, false), step_of_input_reset hin, by simp [hin], agreesWithOpen_of_reset rfl rfl _, rfl⟩
  | strap b =>
    exact ⟨s.dropAction.setStrap b, o, step_of_input_strap hin, by simp [hin], ⟨h.encLegal, h.decLegal, h.enc, h.dec⟩, rfl⟩

/-- A run takes every action, and the registers agree with the messages open at its end (R204). -/
theorem AgreesWithOpen.run {o : Bool × Bool} {s : State} {as : List HostAction} (h : AgreesWithOpen o s) (hin : s.input = as)
    (hnever : neverReserved as = true) :
    ∃ t : State, Host.Core.run Sys2Proof.core as.length s = .next t ∧ t.input = [] ∧ AgreesWithOpen (openAfter as o) t := by
  induction as generalizing o s with
  | nil => exact ⟨s, rfl, hin, h⟩
  | cons a as ih =>
    obtain ⟨t, o', hstep, hrest, ht, hopen⟩ := h.step hin hnever
    obtain ⟨u, hrun, hend, hu⟩ := ih ht hrest (neverReserved_tail hnever)
    exact ⟨u, (run_succ_of_step hstep as.length).trans hrun, hend, hopen ▸ hu⟩

theorem completeRun_iff (as : List HostAction) : completeRun as = true ↔ openAfter as (false, false) = (false, false) := beq_iff_eq

end Sys2Proof.Machine
end

