-- ==== Sys2Proof/Proofs/EndOfRun.lean ====
section
/-! The settled statement about the end of a run. -/

open Sys2Proof Sys2Proof.Machine

/-- Settles O59: along the run the registers of a unit without an open message are at their reset values, and at the end of a complete
run no message is open. -/
theorem completeRunEndsInTheResetState : Obligations.CompleteRunEndsInTheResetState := by
  unfold Obligations.CompleteRunEndsInTheResetState
  intro s henc hdec hnever hcomplete
  obtain ⟨t, hrun, hend, ht⟩ := (agreesWithOpen_of_reset henc hdec (false, false)).run rfl hnever
  rw [(completeRun_iff s.input).1 hcomplete] at ht
  exact ⟨t, hrun, ht.enc rfl, ht.dec rfl, hend⟩

end

