-- ==== Sys2Proof/Proofs/EncByteCases.lean ====
section
/-! SUPPORT. ENC.BYTE by the residue count: the window's slices as slices of the residue and of the byte (R102, R103). -/

namespace Sys2Proof.Machine

/-! ## Slices of the window -/

/-- The lowest `k` bits of the window that are the byte's. -/
theorem EncRegs.lowBits_window (r : EncRegs) (b : Byte) {k : Nat} (hk : k ≤ 4) :
    lowBits 4 (r.window b) k = (b.extractLsb' 0 k).setWidth 4 := by
  have hpow : 2 ^ k ∣ 256 := Nat.pow_dvd_pow 2 (hk.trans (by decide : 4 ≤ 8))
  have hlt : b.toNat % 2 ^ k < 2 ^ 4 := (Nat.mod_lt _ (Nat.two_pow_pos k)).trans_le (Nat.pow_le_pow_right Nat.two_pos hk)
  apply BitVec.eq_of_toNat_eq
  rw [lowBits_toNat _ hk, EncRegs.window_toNat, BitVec.toNat_setWidth, BitVec.extractLsb'_toNat, Nat.shiftRight_zero,
    Nat.mod_eq_of_lt hlt, Nat.add_mod, Nat.mod_eq_zero_of_dvd (hpow.mul_left _), Nat.zero_add, Nat.mod_mod]

/-- A slice of the window that lies in the byte. -/
theorem EncRegs.window_extractLsb'_byte (r : EncRegs) (b : Byte) {k w : Nat} (h : k + w ≤ 8) :
    (r.window b).extractLsb' k w = b.extractLsb' k w :=
  BitVec.extractLsb'_append_eq_of_add_le h

/-- A slice of the window that spans the residue's low `n` bits and the byte's high `k` bits. -/
theorem EncRegs.window_extractLsb'_span (r : EncRegs) (b : Byte) {n k : Nat} (h : k ≤ 8) :
    (r.window b).extractLsb' (8 - k) (n + k) = r.eAcc.extractLsb' 0 n ++ b.extractLsb' (8 - k) k := by
  have hcut : 8 = (8 - k) + k := (Nat.sub_add_cancel h).symm
  have hhigh : (r.window b).extractLsb' 8 n = r.eAcc.extractLsb' 0 n := BitVec.extractLsb'_append_eq_of_le (Nat.le_refl 8)
  have hlow : (r.window b).extractLsb' (8 - k) k = b.extractLsb' (8 - k) k := r.window_extractLsb'_byte b hcut.ge
  rw [← hhigh, ← hlow, BitVec.extractLsb'_append_extractLsb'_eq_extractLsb' hcut]

/-! ## The rows of R103: the registers and the groups by the residue count -/

section Rows

variable (r : EncRegs) (b : Byte)

theorem EncRegs.byte_of_eN_zero (h : r.eN = 0) :
    r.afterByte b = { eAcc := (b.extractLsb' 0 3).setWidth 4, eN := 3, eSym8 := r.eSym8 + 1 } ∧
      r.byteGroups b = [b.extractLsb' 3 5] := by
  have hacc := r.lowBits_window b (k := 3) (by decide)
  have hgroup := r.window_extractLsb'_byte b (k := 3) (w := 5) (by decide)
  constructor
  · simp [EncRegs.afterByte, h, hacc]
  · simp [EncRegs.byteGroups, h, hgroup]

theorem EncRegs.byte_of_eN_one (h : r.eN = 1) :
    r.afterByte b = { eAcc := b.extractLsb' 0 4, eN := 4, eSym8 := r.eSym8 + 1 } ∧
      r.byteGroups b = [r.eAcc.extractLsb' 0 1 ++ b.extractLsb' 4 4] := by
  have hacc := r.lowBits_window b (k := 4) (by decide)
  have hgroup := r.window_extractLsb'_span b (n := 1) (k := 4) (by decide)
  constructor
  · simp [EncRegs.afterByte, h, hacc]
  · simp [EncRegs.byteGroups, h, hgroup]

theorem EncRegs.byte_of_eN_two (h : r.eN = 2) :
    r.afterByte b = { eAcc := 0, eN := 0, eSym8 := r.eSym8 + 2 } ∧
      r.byteGroups b = [r.eAcc.extractLsb' 0 2 ++ b.extractLsb' 5 3, b.extractLsb' 0 5] := by
  have hacc := r.lowBits_window b (k := 0) (by decide)
  have hfirst := r.window_extractLsb'_span b (n := 2) (k := 3) (by decide)
  have hsecond := r.window_extractLsb'_byte b (k := 0) (w := 5) (by decide)
  constructor
  · simp [EncRegs.afterByte, h, hacc]
  · simp [EncRegs.byteGroups, h, hfirst, hsecond]

theorem EncRegs.byte_of_eN_three (h : r.eN = 3) :
    r.afterByte b = { eAcc := (b.extractLsb' 0 1).setWidth 4, eN := 1, eSym8 := r.eSym8 + 2 } ∧
      r.byteGroups b = [r.eAcc.extractLsb' 0 3 ++ b.extractLsb' 6 2, b.extractLsb' 1 5] := by
  have hacc := r.lowBits_window b (k := 1) (by decide)
  have hfirst := r.window_extractLsb'_span b (n := 3) (k := 2) (by decide)
  have hsecond := r.window_extractLsb'_byte b (k := 1) (w := 5) (by decide)
  constructor
  · simp [EncRegs.afterByte, h, hacc]
  · simp [EncRegs.byteGroups, h, hfirst, hsecond]

theorem EncRegs.byte_of_eN_four (h : r.eN = 4) :
    r.afterByte b = { eAcc := (b.extractLsb' 0 2).setWidth 4, eN := 2, eSym8 := r.eSym8 + 2 } ∧
      r.byteGroups b = [r.eAcc.extractLsb' 0 4 ++ b.extractLsb' 7 1, b.extractLsb' 2 5] := by
  have hacc := r.lowBits_window b (k := 2) (by decide)
  have hfirst := r.window_extractLsb'_span b (n := 4) (k := 1) (by decide)
  have hsecond := r.window_extractLsb'_byte b (k := 2) (w := 5) (by decide)
  constructor
  · simp [EncRegs.afterByte, h, hacc]
  · simp [EncRegs.byteGroups, h, hfirst, hsecond]

end Rows

/-- ENC.BYTE on legal registers, from the registers and the groups a row gives. -/
theorem exec_encByte_of_row {s : State} (hlegal : s.enc.legal = true) {b : Byte} {u : EncRegs} {gs : List Group}
    (hrow : s.enc.afterByte b = u ∧ s.enc.byteGroups b = gs) :
    exec (.encByte b) s = .next { s with enc := u, encOut := s.encOut ++ charsOf gs } := by
  obtain ⟨rfl, rfl⟩ := hrow
  exact exec_encByte_of_legal hlegal b

/-! ## Runs of ENC.BYTE -/

/-- The counter pair by the number of bytes: the symbols are the whole groups of the bits, `e_n` the bits left over (R23). -/
theorem encCounters_mem (n : Nat) :
    (n % 5, 8 * n % 5, 8 * n / 5 % 8) ∈ [(0, 0, 0), (1, 3, 1), (2, 1, 3), (3, 4, 4), (4, 2, 6)] := by
  have hrows : ∀ k < 5, (k, 8 * k % 5, 8 * k / 5 % 8) ∈ [(0, 0, 0), (1, 3, 1), (2, 1, 3), (3, 4, 4), (4, 2, 6)] := by decide
  have hsymbols : 8 * n / 5 = 8 * (n / 5) + 8 * (n % 5) / 5 := by omega
  rw [← Nat.mul_mod_mod 8 n 5, hsymbols, Nat.mul_add_mod]
  exact hrows _ (Nat.mod_lt _ (by decide))

end Sys2Proof.Machine
end

