-- ==== Sys2Proof/Proofs/MessageSteps.lean ====
section
/-! The settled statements about ENC.BYTE by cases and about the encoder's and the decoder's messages. -/

open Sys2Proof Sys2Proof.Machine

/-- Settles O16: each residue count's row of registers and groups. -/
theorem encByteByCases : Obligations.EncByteByCases := by
  unfold Obligations.EncByteByCases
  intro s b hlegal a
  exact ⟨fun hn => exec_encByte_of_row hlegal (s.enc.byte_of_eN_zero b hn),
    fun hn => exec_encByte_of_row hlegal (s.enc.byte_of_eN_one b hn),
    fun hn => exec_encByte_of_row hlegal (s.enc.byte_of_eN_two b hn),
    fun hn => exec_encByte_of_row hlegal (s.enc.byte_of_eN_three b hn),
    fun hn => exec_encByte_of_row hlegal (s.enc.byte_of_eN_four b hn)⟩

/-- Settles O19: the byte steps emit the message's whole groups and each close the rest of `Encode`. -/
theorem encoderStepsRefineEncode : Obligations.EncoderStepsRefineEncode := by
  unfold Obligations.EncoderStepsRefineEncode
  intro s bs p henc
  exact ⟨execAll_encode_unpadded henc bs p, execAll_encode_padded henc bs p⟩

/-- Settles O20: ENC has emitted the whole groups of the message's `8 k` bits and holds the bits left over. -/
theorem encoderCountersFollowTheByteCount : Obligations.EncoderCountersFollowTheByteCount := by
  unfold Obligations.EncoderCountersFollowTheByteCount
  intro s bs henc
  obtain ⟨hout, hholds, hsym⟩ := State.encBytes_of_reset henc bs
  have hn : (s.encBytes bs).enc.eN.val = 8 * bs.length % 5 := by
    rw [hholds.eN, Codec.leftover_length, Codec.bytesToBits_length]
  rw [Codec.chunks_length, Codec.bytesToBits_length] at hsym
  refine ⟨s.encBytes bs, execAll_encBytes (henc ▸ EncRegs.reset_legal) bs, ?_, hsym, ?_, ?_⟩
  · rw [hn, Nat.div_add_mod]
  · rw [hout, List.length_append, charsOf_length, Codec.chunks_length, Codec.bytesToBits_length]
  · rw [hn, hsym]
    exact encCounters_mem bs.length

/-- Settles O27: symbols emit the bytes they complete, and a message ends whole, at a foreign character or at a broken run. -/
theorem decoderStepsRefineDecode : Obligations.DecoderStepsRefineDecode := by
  unfold Obligations.DecoderStepsRefineDecode
  intro s cs p hdec
  exact execAll_decode hdec cs p

end

