-- ==== Sys2Proof/Proofs/Guards.lean ====
section
/-! SUPPORT. The guards of the two units' steps on illegal registers (R22, R25, U6; log 6). -/

namespace Sys2Proof.Machine

/-- On illegal registers an ENC step is refused. -/
theorem State.onEnc_of_not_legal {s : State} (h : s.enc.legal = false) (f : State → State) :
    s.onEnc f = .refused .illegalEncRegisters := by
  simp [State.onEnc, h]

/-- On illegal registers a DEC step is refused. -/
theorem State.onDec_of_not_legal {s : State} (h : s.dec.legal s.posw = false) (f : State → State) :
    s.onDec f = .refused .illegalDecRegisters := by
  simp [State.onDec, h]

/-- An instruction of ENC's side is one guarded ENC step. -/
theorem exec_eq_onEnc_of_onEncSide {i : Instr} (hi : onEncSide i = true) : ∃ f : State → State, ∀ s, exec i s = s.onEnc f := by
  cases i with
  | encByte b => exact ⟨State.encByte b, fun _ => rfl⟩
  | encEnd p => exact ⟨State.encEnd, fun _ => rfl⟩
  | encEndp p => exact ⟨State.encEndp, fun _ => rfl⟩
  | encReserved p => cases hi
  | decChar c => cases hi
  | decEnd p => cases hi
  | umxId id => exact ⟨State.umxId id, fun _ => rfl⟩

end Sys2Proof.Machine

namespace Sys2Proof

/-- Every word of `DEC_IN` is an instruction's (R72, R82). -/
theorem decode_decIn_wellFormed (w : BitVec 9) : (decode (.decIn w)).wellFormed = true := by
  rw [← Bool.not_eq_false, decode_wellFormed_eq_false_iff]
  rintro ⟨v, hv, -⟩
  cases hv

/-- Byte `i` of the identifier a word of `UMX_IN` holds (R73). -/
theorem identOfWord_getElem (w : BitVec 128) (i : Fin 16) : (identOfWord w)[i] = identByte w i := by
  simp [identOfWord]

end Sys2Proof
end

