-- ==== Sys2Proof/Proofs/TokensAndActions.lean ====
section
/-! The settled statements about the input words, the host's actions, the registers a unit refuses, and the identifier's lanes. -/

open Sys2Proof Sys2Proof.Machine

/-- Settles O2: on each port the decoder keeps the kind and every bit of the payload. -/
theorem encodeOfDecodeIsTheWord : Obligations.EncodeOfDecodeIsTheWord := by
  unfold Obligations.EncodeOfDecodeIsTheWord
  exact encode_decode

/-- Settles O31: the lanes are read off the reorder, the lane permutation undoes itself, and so the reorder does. -/
theorem reorderIsALanePermutation : Obligations.ReorderIsALanePermutation := by
  unfold Obligations.ReorderIsALanePermutation
  exact ⟨reorder_true_getElem, lanePerm_lanePerm, fun id le => reorder_involutive le id, fun le => (reorder_involutive le).bijective⟩

/-- Settles O3: the decoder's equation for each kind; no word of `DEC_IN` is reserved; the identifier is the word's sixteen bytes. -/
theorem kindFieldPicksTheInstruction : Obligations.KindFieldPicksTheInstruction := by
  unfold Obligations.KindFieldPicksTheInstruction
  refine ⟨?_, ?_, ?_⟩
  · intro w
    exact ⟨decodeEncIn_of_kind_zero, decodeEncIn_of_kind_one, decodeEncIn_of_kind_two, decodeEncIn_of_kind_three⟩
  · intro w
    exact ⟨decodeDecIn_of_kind_zero, decodeDecIn_of_kind_one, decode_decIn_wellFormed w⟩
  · intro w
    exact ⟨identOfWord w, rfl, identOfWord_getElem w⟩

/-- Settles O14: the step's equations for a strap setting and for an empty input. -/
theorem strapAndIdleSteps : Obligations.StrapAndIdleSteps := by
  unfold Obligations.StrapAndIdleSteps
  refine ⟨?_, fun s => step_of_input_nil⟩
  intro s b rest hin
  have hdrop : s.dropAction = { s with input := rest } := by simp [State.dropAction, hin]
  rw [step_of_input_strap hin, hdrop]
  rfl

/-- Settles O51: an instruction is one guarded step of its unit, and the guard refuses the unit's illegal registers. -/
theorem illegalRegistersAreRefused : Obligations.IllegalRegistersAreRefused := by
  unfold Obligations.IllegalRegistersAreRefused
  intro i s
  constructor
  · intro hi hillegal
    obtain ⟨f, hf⟩ := exec_eq_onEnc_of_onEncSide hi
    rw [hf, State.onEnc_of_not_legal hillegal]
  · intro hi hillegal
    obtain ⟨f, -, -, hf⟩ := exec_eq_onDec_of_onDecSide hi
    rw [hf, State.onDec_of_not_legal hillegal]

end

