-- ==== Sys2Proof/Proofs/Alphabet.lean ====
section
/-! SUPPORT. Strings of symbols and their values: case normalisation (R77, R154), the upper-case symbols (R161), and the zero bits that end
an encoding's last group (R100, R144). -/

namespace Sys2Proof.Codec

open Sys2Proof.Machine

/-! ## Case -/

theorem caseNorm_caseNorm : ∀ c : Code, caseNorm (caseNorm c) = caseNorm c := by decide

/-- The reverse table does not see case (R77, R78). -/
@[simp] theorem rev_caseNorm (c : Code) : rev (caseNorm c) = rev c := by
  simp only [rev, caseNorm_caseNorm]

@[simp] theorem caseNorm_padCode : caseNorm padCode = padCode := rfl

theorem Spells.map_caseNorm {xs : List Code} {vs : List Group} (h : Spells xs vs) : Spells (xs.map caseNorm) vs := by
  induction h with
  | nil => exact .nil
  | cons hc _ ih => exact .cons ((rev_caseNorm _).trans hc) ih

/-- `Decode` does not see case, as none of the three shapes of a string does (R154). -/
theorem decode_map_caseNorm (cs : List Code) : decode (cs.map caseNorm) = decode cs := by
  cases messageShape cs with
  | whole k h =>
    rw [List.map_append, List.map_replicate, caseNorm_padCode, decode_whole h, decode_whole h.map_caseNorm]
  | foreign rest h hc =>
    rw [List.map_append, List.map_cons, caseNorm_of_foreign hc, decode_foreign h hc, decode_foreign h.map_caseNorm hc,
      List.length_map]
  | brokenRun k rest h hc =>
    rw [List.map_append, List.map_append, List.map_replicate, List.map_cons, caseNorm_padCode, decode_brokenRun h hc,
      decode_brokenRun h.map_caseNorm ((rev_caseNorm _).symm ▸ hc), List.length_map]

/-! ## Strings of symbols -/

/-- Characters that are symbols have values. -/
theorem exists_spells {xs : List Code} (h : ∀ x ∈ xs, ∃ v, rev x = .sym v) : ∃ vs, Spells xs vs := by
  induction xs with
  | nil => exact ⟨[], .nil⟩
  | cons x xs ih =>
    obtain ⟨v, hv⟩ := h x List.mem_cons_self
    obtain ⟨vs, hvs⟩ := ih fun y hy => h y (List.mem_cons_of_mem x hy)
    exact ⟨v :: vs, .cons hv hvs⟩

theorem Spells.append {xs ys : List Code} {vs ws : List Group} (hx : Spells xs vs) (hy : Spells ys ws) :
    Spells (xs ++ ys) (vs ++ ws) := List.rel_append hx hy

/-- The codes of `'A'` to `'Z'` and `'2'` to `'7'` are the alphabet table's entries (R76, R155). -/
theorem exists_alpha_eq_of_symbolCode : ∀ c : Code, symbolCode c = true → ∃ v, alpha v = c := by decide

/-- A string of upper-case symbols is the alphabet's entries at some groups. -/
theorem exists_map_alpha_eq {cs : List Code} (h : ∀ c ∈ cs, symbolCode c = true) : ∃ vs : List Group, vs.map alpha = cs := by
  induction cs with
  | nil => exact ⟨[], rfl⟩
  | cons c cs ih =>
    obtain ⟨v, rfl⟩ := exists_alpha_eq_of_symbolCode c (h c List.mem_cons_self)
    obtain ⟨vs, rfl⟩ := ih fun d hd => h d (List.mem_cons_of_mem _ hd)
    exact ⟨v :: vs, rfl⟩

theorem padCode_not_mem_encode_unpadded (bs : List Byte) : padCode ∉ encode bs false := by
  intro h
  have hsymbol := symbolCode_of_mem_encode_unpadded h
  revert hsymbol
  decide

/-! ## The last group -/

/-- The last group of a byte sequence ends in the fill's zero bits (R100). -/
theorem last_encodeGroups_mod {bs : List Byte} {init : List Group} {g : Group} (h : encodeGroups bs = init ++ [g]) :
    g.toNat % 2 ^ (fillBits bs).length = 0 := by
  have hbits := groupsToBits_encodeGroups bs
  have hfill : valueOfBits (fillBits bs) = 0 := valueOfBits_replicate_false _
  have hdvd : 2 ^ (fillBits bs).length ∣ 2 ^ 5 := Nat.pow_dvd_pow 2 (fillBits_length_lt bs).le
  rw [h, groupsToBits, List.flatMap_append, List.flatMap_singleton] at hbits
  have hvalue := congrArg valueOfBits hbits
  rw [valueOfBits_append, valueOfBits_append, valueOfBits_bitsMsbFirst, bitsMsbFirst_length, hfill, Nat.add_zero] at hvalue
  apply Nat.mod_eq_zero_of_dvd
  rw [← Nat.dvd_add_right (hdvd.mul_left _), hvalue]
  exact Nat.dvd_mul_left _ _

/-- The eight symbols whose value is a multiple of 4 (R144). -/
theorem alpha_of_multiple_of_four : ∀ g : Group, g.toNat % 4 = 0 →
    ∃ c ∈ [0x41, 0x45, 0x49, 0x4D, 0x51, 0x55, 0x59, 0x34], alpha g = BitVec.ofNat 8 c := by decide

end Sys2Proof.Codec
end

