-- ==== Sys2Proof/Proofs/Canonical.lean ====
section
/-! SUPPORT. Encoding what was decoded (R161), and the encodings and decodings of concatenations (R163), by the bitstreams. -/

namespace Sys2Proof.Codec

open Sys2Proof.Machine

/-! ## Groups back from bytes -/

theorem groupsToBits_append (vs ws : List Group) : groupsToBits (vs ++ ws) = groupsToBits vs ++ groupsToBits ws :=
  List.flatMap_append

theorem bytesToBits_append (bs bs' : List Byte) : bytesToBits (bs ++ bs') = bytesToBits bs ++ bytesToBits bs' :=
  List.flatMap_append

/-- The groups are the chunks of their bits (R51). -/
theorem chunks_groupsToBits (vs : List Group) : chunks 5 (groupsToBits vs) = vs := by
  simpa [chunks, groupsToBits] using chunks_flatMap_append (w := 5) (by decide) vs []

/-- The bits of the assembled bytes, then the bits discarded, are the groups' bits (R120, R121). -/
theorem bytesToBits_assemble (vs : List Group) :
    bytesToBits (assemble vs) ++ leftover 8 (groupsToBits vs) = groupsToBits vs := by
  rw [assemble_eq]
  exact flatMap_chunks_append_leftover 8 (groupsToBits vs)

/-- Groups come back from the bytes assembled of them when the bits discarded are the fill of those bytes. -/
theorem encodeGroups_assemble_iff (vs : List Group) :
    encodeGroups (assemble vs) = vs ↔ leftover 8 (groupsToBits vs) = fillBits (assemble vs) := by
  have hbits := groupsToBits_encodeGroups (assemble vs)
  constructor
  · intro h
    rw [h, ← bytesToBits_assemble vs] at hbits
    exact List.append_cancel_left hbits
  · intro h
    rw [← h, bytesToBits_assemble] at hbits
    rw [← chunks_groupsToBits (encodeGroups _), hbits, chunks_groupsToBits]

/-- The bits discarded of `n` groups are as many as the fill of the bytes assembled exactly for R161's lengths. -/
theorem discarded_eq_fill_iff (n : Nat) :
    5 * n % 8 = (5 - 8 * (5 * n / 8) % 5) % 5 ↔ n % 8 ∈ [0, 2, 4, 5, 7] := by
  have hrows : ∀ k < 8, 5 * k % 8 = (5 - 8 * (5 * k / 8) % 5) % 5 ↔ k ∈ [0, 2, 4, 5, 7] := by decide
  have hbits : 5 * n % 8 = 5 * (n % 8) % 8 := (Nat.mul_mod_mod 5 n 8).symm
  have hbytes : 8 * (5 * n / 8) % 5 = 8 * (5 * (n % 8) / 8) % 5 := by omega
  rw [hbits, hbytes]
  exact hrows _ (Nat.mod_lt _ (by decide))

/-- The fill is as long as the bits discarded, and those are zero, exactly when the length is one of R161's and they are zero. -/
theorem leftover_eq_fillBits_iff (vs : List Group) :
    leftover 8 (groupsToBits vs) = fillBits (assemble vs) ↔
      vs.length % 8 ∈ [0, 2, 4, 5, 7] ∧ ∀ b ∈ leftover 8 (groupsToBits vs), b = false := by
  rw [fillBits, List.eq_replicate_iff, leftover_length, groupsToBits_length, assemble_length, discarded_eq_fill_iff]

/-! ## Canonical strings -/

theorem trailingBitsZero_map_alpha_iff (vs : List Group) :
    trailingBitsZero (vs.map alpha) = true ↔ ∀ b ∈ leftover 8 (groupsToBits vs), b = false := by
  have hcut : 5 * vs.length - 5 * vs.length % 8 = 8 * (5 * vs.length / 8) := by omega
  rw [trailingBitsZero, (spells_map_alpha vs).mapSymbols, leftover, groupsToBits_length, List.length_map, hcut]
  simp

/-- Upper-case symbols are canonical when their groups come back from the bytes assembled of them (R161). -/
theorem canonical_map_alpha_iff (vs : List Group) : canonical (vs.map alpha) = true ↔ encodeGroups (assemble vs) = vs := by
  have hsymbols : (vs.map alpha).all symbolCode = true := by simp [symbolCode_alpha]
  rw [encodeGroups_assemble_iff, leftover_eq_fillBits_iff, ← trailingBitsZero_map_alpha_iff, canonical, hsymbols, List.length_map,
    Bool.true_and, Bool.and_eq_true, List.contains_iff_mem]

theorem all_symbolCode_of_canonical {cs : List Code} (h : canonical cs = true) : ∀ c ∈ cs, symbolCode c = true := by
  simp only [canonical, Bool.and_eq_true, List.all_eq_true] at h
  obtain ⟨⟨hsymbols, -⟩, -⟩ := h
  exact hsymbols

/-! ## Concatenations -/

/-- The whole chunks of a message's bits begin the groups of every message it begins (R163). -/
theorem chunks_prefix_encodeGroups (bs bs' : List Byte) : chunks 5 (bytesToBits bs) <+: encodeGroups (bs ++ bs') := by
  rw [encodeGroups_eq_chunks, bytesToBits_append, List.append_assoc, chunks_append (by decide) (bytesToBits bs)]
  exact List.prefix_append _ _

/-- The first `8 N / 5` characters of an encoding are its whole groups, which the fill does not reach. -/
theorem take_encode_unpadded (bs : List Byte) :
    (encode bs false).take (8 * bs.length / 5) = (chunks 5 (bytesToBits bs)).map alpha := by
  have hlen : ((chunks 5 (bytesToBits bs)).map alpha).length = 8 * bs.length / 5 := by simp
  have hencode : encode bs false = (encodeGroups bs).map alpha := rfl
  rw [hencode, encodeGroups_eq, List.map_append, List.take_left' hlen]

/-- After a whole number of five-byte blocks a message is encoded anew (R163). -/
theorem encodeGroups_append {bs : List Byte} (h : bs.length % 5 = 0) (bs' : List Byte) :
    encodeGroups (bs ++ bs') = encodeGroups bs ++ encodeGroups bs' := by
  have hfill : fillBits bs = [] := by
    have hnone : (5 - 8 * bs.length % 5) % 5 = 0 := by omega
    rw [fillBits, hnone, List.replicate_zero]
  have hfill' : fillBits (bs ++ bs') = fillBits bs' := by
    have hsame : 8 * (bs.length + bs'.length) % 5 = 8 * bs'.length % 5 := by omega
    rw [fillBits, fillBits, List.length_append, hsame]
  have hwhole : leftover 5 (bytesToBits bs) = [] :=
    List.eq_nil_of_length_eq_zero (by rw [leftover_length, bytesToBits_length]; omega)
  rw [encodeGroups_eq_chunks, encodeGroups_eq_chunks, encodeGroups_eq_chunks, hfill, hfill', bytesToBits_append, List.append_nil,
    List.append_assoc, chunks_append (by decide), hwhole, List.nil_append]

/-- The bytes of groups begin the bytes of every group sequence they begin; after a whole number of eight-group blocks the rest is
assembled anew (R163). -/
theorem assemble_append (vs ws : List Group) :
    assemble vs <+: assemble (vs ++ ws) ∧ (vs.length % 8 = 0 → assemble (vs ++ ws) = assemble vs ++ assemble ws) := by
  have happend : assemble (vs ++ ws) =
      assemble vs ++ chunks 8 (leftover 8 (groupsToBits vs) ++ groupsToBits ws) := by
    rw [assemble_eq, assemble_eq, groupsToBits_append, chunks_append (by decide)]
  refine ⟨happend ▸ List.prefix_append _ _, fun h => ?_⟩
  have hwhole : leftover 8 (groupsToBits vs) = [] :=
    List.eq_nil_of_length_eq_zero (by rw [leftover_length, groupsToBits_length]; omega)
  rw [happend, hwhole, List.nil_append, ← assemble_eq]

end Sys2Proof.Codec
end

