-- ==== Sys2Proof/Proofs/DerivedLaws.lean ====
section
/-! The settled statements about the message-level functions and the identifier's string. -/

open Sys2Proof Sys2Proof.Machine

/-- Settles O40: each variant is undone by `Decode`, so the two can only agree on one sequence, and there when no pads are needed. -/
theorem encodeIsInjective : Obligations.EncodeIsInjective := by
  unfold Obligations.EncodeIsInjective
  refine ⟨fun bs bs' p h => Codec.encode_injective p h, fun bs bs' => ⟨fun h => ?_, ?_⟩⟩
  · have hdecode := congrArg Codec.decode h
    rw [Codec.decode_encode_eq_bytes, Codec.decode_encode_eq_bytes] at hdecode
    obtain rfl := Codec.DecodeResult.bytes.inj hdecode
    have hlen := congrArg List.length h
    rw [Codec.encode_padded_length, Codec.encode_unpadded_length] at hlen
    exact ⟨rfl, by omega⟩
  · rintro ⟨rfl, h⟩
    have hpads : (8 - (8 * bs.length + 4) / 5 % 8) % 8 = 0 := by omega
    rw [Codec.encode_padded_eq, Codec.encode_unpadded_length, hpads, List.replicate_zero, List.append_nil]

/-- Settles O41: case is seen by none of the three shapes of a string, and foreign characters have none. -/
theorem decodeIgnoresCase : Obligations.DecodeIgnoresCase := by
  unfold Obligations.DecodeIgnoresCase
  exact fun cs => (Codec.decode_map_caseNorm cs).symm

/-- Settles O43: such a string is symbols and a broken run of `'='`. -/
theorem misplacedPadIsReported : Obligations.MisplacedPadIsReported := by
  unfold Obligations.MisplacedPadIsReported
  intro xs rest k c hsymbols hk hc
  obtain ⟨vs, hvs⟩ := Codec.exists_spells hsymbols
  obtain ⟨j, rfl⟩ := Nat.exists_eq_succ_of_ne_zero (Nat.ne_of_gt hk)
  rw [List.append_assoc]
  exact Codec.decode_brokenRun hvs (fun hpad => hc ((rev_eq_pad_iff c).1 hpad)) j rest

/-- Settles O44: upper-case symbols are `ALPHA` of groups, and a canonical string's groups are those that come back from the bytes
assembled of them. -/
theorem canonicalStringsAreTheFixedPoints : Obligations.CanonicalStringsAreTheFixedPoints := by
  unfold Obligations.CanonicalStringsAreTheFixedPoints
  intro cs
  constructor
  · rintro ⟨d, -, rfl⟩
    exact (Codec.canonical_map_alpha_iff _).2 (congrArg Codec.encodeGroups (Codec.assemble_encodeGroups d))
  · intro h
    obtain ⟨vs, rfl⟩ := Codec.exists_map_alpha_eq (Codec.all_symbolCode_of_canonical h)
    exact ⟨Codec.assemble vs, Codec.decode_of_spells (Codec.spells_map_alpha vs),
      congrArg (List.map alpha) ((Codec.canonical_map_alpha_iff vs).1 h)⟩

/-- Settles O45: the whole chunks of a bitstream are those of every bitstream it begins, and nothing is left over after whole blocks. -/
theorem codecPrefixProperties : Obligations.CodecPrefixProperties := by
  unfold Obligations.CodecPrefixProperties
  refine ⟨?_, ?_, ?_⟩
  · intro bs bs'
    rw [Codec.take_encode_unpadded]
    exact (Codec.chunks_prefix_encodeGroups bs bs').map alpha
  · intro bs bs' h
    exact (congrArg (List.map alpha) (Codec.encodeGroups_append h bs')).trans List.map_append
  · intro cs cs' hsymbols
    obtain ⟨vs, hvs⟩ := Codec.exists_spells fun x hx => hsymbols x (List.mem_append_left cs' hx)
    obtain ⟨ws, hws⟩ := Codec.exists_spells fun x hx => hsymbols x (List.mem_append_right cs hx)
    obtain ⟨hprefix, hblocks⟩ := Codec.assemble_append vs ws
    exact ⟨_, _, _, Codec.decode_of_spells hvs, Codec.decode_of_spells hws, Codec.decode_of_spells (hvs.append hws), hprefix,
      fun hlen => hblocks (hvs.length_eq ▸ hlen)⟩

/-- Settles O35: 16 bytes give 26 groups, the last of which ends in two zero bits of fill. -/
theorem identifierStringShape : Obligations.IdentifierStringShape := by
  unfold Obligations.IdentifierStringShape
  intro id le
  refine ⟨identifierToBase32_length id le, Codec.padCode_not_mem_encode_unpadded _, ?_⟩
  have hfill : (Codec.fillBits (reorder id le).toList).length = 2 := by simp [Codec.fillBits]
  obtain hnil | ⟨init, g, hgroups⟩ := List.eq_nil_or_concat' (Codec.encodeGroups (reorder id le).toList)
  · have hlen := Codec.encodeGroups_length (reorder id le).toList
    simp [hnil, Codec.symbolCount] at hlen
  · have hzero := Codec.last_encodeGroups_mod hgroups
    rw [hfill] at hzero
    obtain ⟨c, hc, hg⟩ := Codec.alpha_of_multiple_of_four g hzero
    refine ⟨c, hc, ?_⟩
    simp [Codec.identifierToBase32, Codec.encode, hgroups, hg]

end
